-- ==== Sys2Proof/Word.lean ====
section
/-! DEFINITION. The word types of the LFSR core: the 32-bit command word (spec/30_encoding.md R70)
and the 16-bit fields and registers (R72, R73; spec/10_state.md R21, R29). -/

namespace Sys2Proof

/-- The command word on the `cmd` port (R70). -/
abbrev CmdWord := BitVec 32

/-- The IMM16 field, and the registers LEN and CNT (R70, R21, R29). -/
abbrev Half := BitVec 16

end Sys2Proof
end

