-- ==== Sys2Proof/Syntax.lean ====
section
/-! DEFINITION. The commands of LFSR-CMD revision 1 (spec/00_scope.md R3, spec/30_encoding.md R71):
one constructor for each row of spec/opcode_table.json. -/

namespace Sys2Proof

/-- A decoded command word (R76). LOAD's other two operands, `cmd_fill` and `cmd_taps`, are ports
and not fields of the word (R40, R70); the machine reads them from the ports. Log entry 4. -/
inductive Instr where
  /-- LOAD with `LEN_in = zext(cmd[31:16])` (R72). -/
  | load (len : Nat)
  /-- STEP (R74). -/
  | step
  /-- RAND with `K_in = sext_16(cmd[31:16])` (R73). -/
  | rand (k : Int)
  deriving DecidableEq, Repr

end Sys2Proof
end

