-- ==== Sys2Proof/WellFormed.lean ====
section
/-! DEFINITION. The commands a word can carry: `len` is in [0, 65535] and `k` in [-32768, 32767]
(spec/30_encoding.md R72, R73, R79: "the values cannot be encoded"). -/

namespace Sys2Proof

/-- The command's immediate fits the IMM16 field (R79). A value the block refuses by a status code
(LEN_in = 0, a negative K) is well formed: R79 has it assembled. -/
def Instr.wellFormed : Instr → Bool
  | .load len => decide (len ≤ 65535)
  | .step => true
  | .rand k => decide (-32768 ≤ k) && decide (k ≤ 32767)

/-- The same as a proposition. -/
abbrev Instr.WF (i : Instr) : Prop := i.wellFormed = true

end Sys2Proof
end

