-- ==== Sys2Proof/Decode.lean ====
section
/-! DEFINITION. Decoding and encoding of the command word (spec/30_encoding.md R70 to R79). -/

namespace Sys2Proof

/-! ## Fields of CMD32 (R70) -/

/-- IMM16, bits 31:16. -/
def fieldImm16 (w : CmdWord) : Half := w.extractLsb' 16 16

/-- RSV, bits 15:2. -/
def fieldRsv (w : CmdWord) : BitVec 14 := w.extractLsb' 2 14

/-- OP, bits 1:0. -/
def fieldOp (w : CmdWord) : BitVec 2 := w.extractLsb' 0 2

/-- RSV and OP together, bits 15:0, which R76 compares with one constant. -/
def fieldLow (w : CmdWord) : Half := w.extractLsb' 0 16

/-! ## Decode (R76) -/

/-- R76, case by case. `none` is ILLEGAL. The K field is read as two's complement (`sext_16`, R11,
R73), the LEN field as unsigned (R72). -/
def decode (w : CmdWord) : Option Instr :=
  if fieldLow w = 0x0001#16 then some (.load (fieldImm16 w).toNat)
  else if w = 0x00000002#32 then some .step
  else if fieldLow w = 0x0003#16 then some (.rand (fieldImm16 w).toInt)
  else none

/-- The instruction the decoder reads from a table word. Every command is exactly 32 bits (R77);
a shorter `nbits` leaves the bits above it 0, and a word longer than 32 bits is no command. The
`cmd` port carries the word whole, so there is no byte order to apply (spec/20_memory.md R53). -/
def decodeTableWord (nbits w : Nat) : Option Instr :=
  if nbits ≤ 32 then decode (BitVec.ofNat 32 (w % 2 ^ nbits)) else none

/-! ## Encode (R79) -/

/-- The word of a command: IMM16 above the constant low half (R78, R79). -/
def encode : Instr → CmdWord
  | .load len => BitVec.ofNat 16 len ++ 0x0001#16
  | .step => 0x00000002#32
  | .rand k => BitVec.ofInt 16 k ++ 0x0003#16

/-! ## The opcode map (R78) -/

/-- A row of the opcode map. -/
structure OpcodeRow where
  mnemonic : String
  matchBits : CmdWord
  maskBits : CmdWord
  deriving DecidableEq, Repr

/-- "A word w is the command when (w & mask) == match" (R78). -/
def OpcodeRow.covers (r : OpcodeRow) (w : CmdWord) : Bool := w &&& r.maskBits == r.matchBits

/-- R78's three rows. -/
def opcodeMap : List OpcodeRow :=
  [⟨"LOAD", 0x00000001#32, 0x0000FFFF#32⟩,
   ⟨"STEP", 0x00000002#32, 0xFFFFFFFF#32⟩,
   ⟨"RAND", 0x00000003#32, 0x0000FFFF#32⟩]

/-- The command's mnemonic in the opcode map (R78). -/
def Instr.mnemonic : Instr → String
  | .load _ => "LOAD"
  | .step => "STEP"
  | .rand _ => "RAND"

end Sys2Proof
end

