-- ==== Sys2Proof/Config.lean ====
section
/-! DEFINITION. What one implementation fixes: the two OPEN synthesis parameters N_MAX and K_MAX
(spec/00_scope.md R7; spec/92_eei_decisions.md D3, D4). -/

namespace Sys2Proof

/-- The synthesis parameters of one block (R7). Each is held one below its value, so that the
legal ranges 1 ≤ N_MAX ≤ 65535 and 1 ≤ K_MAX ≤ 32767 hold by construction. -/
structure Params where
  nMaxLess1 : Fin 65535
  kMaxLess1 : Fin 32767
  deriving DecidableEq, Repr, Inhabited

/-- N_MAX: the width of STATE and TAPS, and the largest length a LOAD accepts (R7). -/
def Params.nMax (p : Params) : Nat := p.nMaxLess1.val + 1

/-- K_MAX: the width of RESULT, and the largest `k` a RAND accepts (R7). -/
def Params.kMax (p : Params) : Nat := p.kMaxLess1.val + 1

/-- The parameters of the block the machine `core` starts as. The spec leaves both OPEN (R7), so
nothing is known of them but their ranges. DESIGN CHOICE, log entry 1 (safe: a claim about
`State.reset` holds for every value of the two parameters). -/
opaque Config.params : Params

/-- The reference configuration of the spec's vectors, N_MAX = 16 and K_MAX = 16 (R7,
spec/95_test_vectors.md). It is "not a value of the hardware"; only tests and witnesses use it. -/
def Params.reference : Params := ⟨15, 15⟩

end Sys2Proof
end

