-- ==== Sys2Proof/Machine/State.lean ====
section
/-! DEFINITION. The state of the LFSR core as plain data: the architectural registers
(spec/10_state.md R20 to R26), the engine's registers (R28 to R30), the `done` register (R41,
spec/70_reset_and_hazards.md R191) and the host's side of the input ports (R40). -/

namespace Sys2Proof.Machine

/-- The values of the input ports of one clock edge (R40); `clk` itself is the step. -/
structure Ports (n : Nat) where
  /-- `rst`, active high (R180). -/
  rst : Bool
  /-- `cmd_valid`: the host offers a command. -/
  cmdValid : Bool
  /-- `cmd`: the command word (R70). -/
  cmd : CmdWord
  /-- `cmd_fill`, in STATE's bit order (R52). -/
  fill : BitVec n
  /-- `cmd_taps`: bit t selects tap t (R52). -/
  taps : BitVec n
  deriving DecidableEq, Repr

/-- The ports of a host that offers nothing. -/
def Ports.quiet (n : Nat) : Ports n := ⟨false, false, 0#32, 0#n, 0#n⟩

/-- The state. The widths of STATE, TAPS, RESULT and ACC are those of the block's own parameters,
which no step changes (R7). -/
structure State where
  /-- N_MAX and K_MAX (R7). -/
  params : Params
  /-- STATE (R20): bit p is the source's `state[(LEN-1)-p]`. -/
  state : BitVec params.nMax
  /-- TAPS (R22): the tap mask. -/
  taps : BitVec params.nMax
  /-- LEN (R21): the register length, 0 when no register is loaded. -/
  len : Half
  /-- LOADED (R23): a LOAD has succeeded since the last reset. -/
  loaded : Bool
  /-- RESULT (R24): what the last successful command returned. -/
  result : BitVec params.kMax
  /-- STATUS (R25): the completion code of the last accepted command. -/
  status : BitVec 3
  /-- BUSY (R28): a RAND is collecting bits after its acceptance edge. -/
  busy : Bool
  /-- CNT (R29): the steps a running RAND still has to make. -/
  cnt : Half
  /-- ACC (R30): the engine's accumulator. -/
  acc : BitVec params.kMax
  /-- The register behind `done` (R191). -/
  done : Bool
  /-- The present values of the input ports (R40). -/
  ports : Ports params.nMax
  /-- The model's own: the values the host drives at the steps after this one, next first; when it
  runs out the host offers nothing. DESIGN CHOICE, log entry 3. -/
  script : List (Ports params.nMax)
  deriving DecidableEq, Repr

/-- Reasons to stop with a fault: none. "There are no fatal/unrecoverable process-level failures"
(spec/60_exceptions.md R167); each error of the spec is a code in STATUS and a next state (R163).
Nobody raises one, so the type has no constructor, which is safe: log entry 12. -/
inductive Fault
  deriving DecidableEq, Repr

/-- Reasons to refuse an instruction. -/
inductive Refusal where
  /-- Raised by an arm of `exec` whose instruction has no meaning yet; here every arm has its
  meaning, so no arm raises it. Safe: nothing is claimed of a refused instruction. -/
  | notModelled (mnemonic : String)
  deriving DecidableEq, Repr

/-- The state after reset of a block with parameters `p`: every register at the value of R181. The
host offers nothing yet (log entry 3). -/
def State.resetOf (p : Params) : State where
  params := p
  state := 0
  taps := 0
  len := 0
  loaded := false
  result := 0
  status := 0
  busy := false
  cnt := 0
  acc := 0
  done := false
  ports := Ports.quiet p.nMax
  script := []

/-- The machine right after reset (R181), for the block's OPEN parameters (R7, log entry 1). -/
def State.reset : State := State.resetOf Config.params

end Sys2Proof.Machine
end

