-- ==== Sys2Proof/Machine/Flags.lean ====
section
/-! DEFINITION. STATUS and the completion of a command: the status codes (spec/60_exceptions.md R160),
`complete` and `raise` (spec/00_scope.md R11). Raising an error is the block's whole exception
mechanism: no pc is saved, no mode changes, no handler runs (R163, R168). -/

namespace Sys2Proof.Machine

/-- The names of R160. -/
inductive StatusName where
  | ok
  | invalidState
  | invalidTap
  | invalidArgument
  | invalidLength
  | notLoaded
  | illegalCommand
  deriving DecidableEq, Repr

/-- The code of each name (R160). Code 7 belongs to none. -/
def StatusName.code : StatusName → BitVec 3
  | .ok => 0
  | .invalidState => 1
  | .invalidTap => 2
  | .invalidArgument => 3
  | .invalidLength => 4
  | .notLoaded => 5
  | .illegalCommand => 6

/-- A command's completion, an error among them (log entry 18): STATUS takes its code and `done` is 1
for the cycle that follows (R25,
R191). -/
def finish (c : StatusName) (s : State) : State := { s with status := c.code, done := true }

/-- `complete(OK)` (R11). -/
def complete (s : State) : State := finish .ok s

/-- `raise <STATUS_NAME>()` (R11): STATUS takes the code and no other architectural register
changes (R163). -/
def raise (c : StatusName) (s : State) : State := finish c s

end Sys2Proof.Machine
end

