-- ==== Sys2Proof/Machine/Operands.lean ====
section
/-! DEFINITION. The operands of a command: the two operand ports, the K argument of RAND, and
the primitives `ones` and `zext` of the rules (spec/00_scope.md R11). -/

namespace Sys2Proof.Machine

/-- `ones(m)` at width `w`: bits m-1..0 are 1 and the others 0 (R11). -/
def ones (w m : Nat) : BitVec w := BitVec.ofNat w (2 ^ m - 1)

/-- `zext_W` of one bit (R11). -/
def zextBit (w : Nat) (b : Bool) : BitVec w := (BitVec.ofBool b).setWidth w

/-- The `fill` operand of a LOAD: `cmd_fill`, sampled at acceptance (R40, R104). -/
def fillOperand (s : State) : BitVec s.params.nMax := s.ports.fill

/-- The `taps` operand of a LOAD: `cmd_taps`, sampled at acceptance (R40, R104). -/
def tapsOperand (s : State) : BitVec s.params.nMax := s.ports.taps

/-- R101's condition: LEN_in is 0 or more than N_MAX. -/
def badLength (p : Params) (len : Nat) : Bool := len == 0 || decide (p.nMax < len)

/-- The condition of R102 and R103: `v & ~ones(LEN_in)` is not 0. -/
def outsideLength {w : Nat} (len : Nat) (v : BitVec w) : Bool := v &&& ~~~ones w len != 0

/-- R142's condition: K_in is negative or more than K_MAX. -/
def badArgument (p : Params) (k : Int) : Bool := decide (k < 0) || decide ((p.kMax : Int) < k)

end Sys2Proof.Machine
end

