-- ==== Sys2Proof/Machine/Ops.lean ====
section
/-! DEFINITION. The named operations of the block: the XOR feedback tree (spec/41_step.md R120), the
shift (R123), the collection of bits (spec/42_rand.md R140), the reset edge
(spec/70_reset_and_hazards.md R180) and the host's ports (spec/10_state.md R40). -/

namespace Sys2Proof.Machine

/-! ## The feedback tree -/

/-- The XOR of the bits of `v` below position `m`. -/
def parityBelow {w : Nat} (v : BitVec w) : Nat → Bool
  | 0 => false
  | m + 1 => xor (parityBelow v m) (v.getLsbD m)

/-- `parity(v)`: the XOR of all bits of `v` (R11). -/
def parity {w : Nat} (v : BitVec w) : Bool := parityBelow v w

/-- `fb = parity(STATE & TAPS)` (R120). -/
def feedback {w : Nat} (taps x : BitVec w) : Bool := parity (x &&& taps)

/-! ## The shift -/

/-- `((STATE << 1) | fb) & ones(LEN)`, formed at N_MAX+1 bits (R123): `concat` puts `fb` below
the bits of `x`. -/
def shiftIn {w : Nat} (len : Nat) (x : BitVec w) (fb : Bool) : BitVec w :=
  ((x.concat fb) &&& (ones w len).setWidth (w + 1)).setWidth w

/-- The successor of STATE under one step of the register (R123), for a given LEN and TAPS. -/
def nextBits {w : Nat} (len : Nat) (taps x : BitVec w) : BitVec w :=
  shiftIn len x (feedback taps x)

/-! ## Shift and collect -/

/-- `(ACC << 1) | fb` (R140), at K_MAX bits. -/
def collectBit {k : Nat} (acc : BitVec k) (fb : Bool) : BitVec k := acc <<< 1 ||| zextBit k fb

/-- R140's loop run `m` times from the register bits `x` and the accumulator `acc`: the final
register bits and the final accumulator. -/
def collect {w k : Nat} (len : Nat) (taps : BitVec w) :
    Nat → BitVec w → BitVec k → BitVec w × BitVec k
  | 0, x, acc => (x, acc)
  | m + 1, x, acc => collect len taps m (nextBits len taps x) (collectBit acc (feedback taps x))

/-! ## The same, on State -/

/-- The output `fb` of the feedback tree in state `s` (R120). -/
def State.fb (s : State) : Bool := feedback s.taps s.state

/-- STATE after one step of the register (R123). -/
def State.shifted (s : State) : BitVec s.params.nMax := nextBits s.len.toNat s.taps s.state

/-! ## Reset -/

/-- What an edge with `rst` = 1 sets (R180). The parameters and the host's ports stay. -/
def resetRegisters (s : State) : State :=
  { s with
    state := 0, taps := 0, len := 0, loaded := false, result := 0, status := StatusName.ok.code,
    busy := false, cnt := 0, acc := 0, done := false }

/-! ## The host's ports -/

/-- After an edge the host drives its next port values. A host whose script has run out keeps its
lines but lowers `rst` and `cmd_valid`. DESIGN CHOICE, log entry 3. -/
def State.advance (s : State) : State :=
  match s.script with
  | [] => { s with ports := { s.ports with rst := false, cmdValid := false } }
  | p :: rest => { s with ports := p, script := rest }

/-- The host offers the word `w` at the next edge of an idle block: `rst` = 0, `cmd_valid` = 1,
BUSY = 0 and no step left to make (R190). All else stays, the operand ports among it. Log entry 9. -/
def State.offer (s : State) (w : CmdWord) : State :=
  { s with
    ports := { s.ports with rst := false, cmdValid := true, cmd := w }, busy := false, cnt := 0 }

/-- `cmd_ready = !BUSY && !rst` (R41). -/
def State.cmdReady (s : State) : Bool := !s.busy && !s.ports.rst

/-- A command is accepted at the coming edge (R40, R190). -/
def State.accepts (s : State) : Bool := !s.ports.rst && s.ports.cmdValid && s.cmdReady

end Sys2Proof.Machine
end

