-- ==== Sys2Proof/Machine/Advance.lean ====
section
/-! DEFINITION. STEP (spec/41_step.md R124) and RAND (spec/42_rand.md R144). -/

namespace Sys2Proof.Machine

/-- STEP's writes on a loaded register (R124): the tree reads STATE before the shift. -/
def stepRegister (s : State) : State :=
  complete { s with state := s.shifted, result := zextBit s.params.kMax s.fb }

/-- The state after a STEP (R124, R164). -/
def afterStep (s : State) : State :=
  if s.loaded then stepRegister s else raise .notLoaded s

/-- STEP (R124). -/
def execStep (s : State) : Host.Outcome State Fault Refusal := .next (afterStep s)

/-- RAND's writes for k steps on a loaded register (R144). RESULT takes the collected value. The
engine's registers end as R150 leaves them: ACC holds that value and CNT is 0 when the engine made
a step, and neither changes for k = 0 (R149). DEDUCED, log entry 5 (unsafe: hidden registers). -/
def randRegister (k : Nat) (s : State) : State :=
  let r := collect (k := s.params.kMax) s.len.toNat s.taps k s.state 0
  complete
    { s with
      state := r.1, result := r.2,
      acc := if k = 0 then s.acc else r.2, cnt := if k = 0 then s.cnt else 0 }

/-- The checks of RAND, in the order of spec/60_exceptions.md R166; `run` is what follows when they
pass. -/
def randChecked (k : Int) (run : Nat → State → State) (s : State) : State :=
  if s.loaded then
    if badArgument s.params k then raise .invalidArgument s else run k.toNat s
  else raise .notLoaded s

/-- The state after a RAND: its whole effect, taken at once (R144, R55). -/
def afterRand (k : Int) (s : State) : State := randChecked k randRegister s

/-- RAND (R144). -/
def execRand (k : Int) (s : State) : Host.Outcome State Fault Refusal := .next (afterRand k s)

end Sys2Proof.Machine
end

