-- ==== Sys2Proof/Machine/Construct.lean ====
section
/-! DEFINITION. LOAD: construction of a register (spec/40_load.md). -/

namespace Sys2Proof.Machine

/-- LOAD's writes when all three checks pass (R104). -/
def loadRegister (len : Nat) (s : State) : State :=
  complete
    { s with
      state := fillOperand s, taps := tapsOperand s, len := BitVec.ofNat 16 len, loaded := true,
      result := 0 }

/-- The state after a LOAD: R104's pseudocode, the checks of R101, R102 and R103 in the order of
spec/60_exceptions.md R166. -/
def afterLoad (len : Nat) (s : State) : State :=
  if badLength s.params len then raise .invalidLength s
  else if outsideLength len (fillOperand s) then raise .invalidState s
  else if outsideLength len (tapsOperand s) then raise .invalidTap s
  else loadRegister len s

/-- LOAD (R104). -/
def execLoad (len : Nat) (s : State) : Host.Outcome State Fault Refusal := .next (afterLoad len s)

end Sys2Proof.Machine
end

