-- ==== Sys2Proof/Machine/Dispatch.lean ====
section
/-! DEFINITION. One arm for each command (spec/30_encoding.md R71). -/

namespace Sys2Proof.Machine

def exec (i : Instr) (s : State) : Host.Outcome State Fault Refusal :=
  match i with
  | .load len => Sys2Proof.Machine.execLoad len s
  | .step => Sys2Proof.Machine.execStep s
  | .rand k => Sys2Proof.Machine.execRand k s

end Sys2Proof.Machine
end

