-- ==== Sys2Proof/Machine/Engine.lean ====
section
/-! DEFINITION. The reference engine, edge by edge (spec/42_rand.md R150). Its cycle counts are not
architectural (spec/70_reset_and_hazards.md R192). -/

namespace Sys2Proof.Machine

/-- One step of the engine: the register shifts, the bit `fb` is collected into the accumulator value
`acc`, and CNT takes `cnt` (R140, R150). -/
def engineStep (s : State) (acc : BitVec s.params.kMax) (cnt : Half) : State :=
  { s with state := s.shifted, acc := collectBit acc s.fb, cnt := cnt }

/-- The end of an engine's edge: with CNT = 0 it completes (RESULT <- ACC, STATUS <- OK, BUSY is 0),
otherwise BUSY is 1 and nothing completes (R150, R191). -/
def engineSettle (s : State) : State :=
  if s.cnt = 0 then complete { s with result := s.acc, busy := false }
  else { s with busy := true, done := false }

/-- The edge that accepts a RAND of k steps which passes its checks (R150). ACC starts from 0 (R140).
With k = 0 the RAND completes at that edge with the effect of R149. -/
def engineStart (k : Nat) (s : State) : State :=
  if k = 0 then randRegister 0 s else engineSettle (engineStep s 0 (BitVec.ofNat 16 (k - 1)))

/-- A later edge, with BUSY = 1 and `rst` = 0 (R150). CNT counts down in its 16 bits; CNT = 0 with
BUSY = 1 is a state no run reaches, log entry 13. -/
def engineContinue (s : State) : State := engineSettle (engineStep s s.acc (s.cnt - 1))

/-- RAND's acceptance edge in the reference engine: the checks of R144, then `engineStart`. -/
def engineAccept (i : Instr) (s : State) : Host.Outcome State Fault Refusal :=
  match i with
  | .load len => exec (.load len) s
  | .step => exec .step s
  | .rand k => .next (randChecked k engineStart s)

end Sys2Proof.Machine
end

