-- ==== Sys2Proof/Machine/Edge.lean ====
section
/-! DEFINITION. One rising edge of `clk`: reset, the running engine, the acceptance of a command, or
nothing (spec/70_reset_and_hazards.md R180, R182, R190; spec/10_state.md R40; spec/60_exceptions.md
R165, R176). -/

namespace Sys2Proof.Machine

/-- The outcome with `f` applied to its next state. -/
def mapNext (f : State → State) :
    Host.Outcome State Fault Refusal → Host.Outcome State Fault Refusal
  | .next s => .next (f s)
  | .fault r => .fault r
  | .refused r => .refused r

/-- An accepted word (R76, R165): it is decoded before anything else is checked, and an ILLEGAL one
raises ILLEGAL_COMMAND. `run` gives the meaning of a decoded command. -/
def acceptWord (run : Instr → State → Host.Outcome State Fault Refusal) (s : State) :
    Host.Outcome State Fault Refusal :=
  match decode s.ports.cmd with
  | some i => run i s
  | none => .next (raise .illegalCommand s)

/-- What one edge does to the registers: reset before all else (R180), then the engine if BUSY
(R150; the offered command is not accepted, R190), then the offered command (R40), else the block
is idle and holds its state (R176); `done` lasts one cycle (R191). -/
def edgeRegisters (run : Instr → State → Host.Outcome State Fault Refusal) (s : State) :
    Host.Outcome State Fault Refusal :=
  if s.ports.rst then .next (resetRegisters s)
  else if s.busy then .next (engineContinue s)
  else if s.ports.cmdValid then acceptWord run s
  else .next { s with done := false }

/-- One edge, after which the host drives its next port values. -/
def edge (run : Instr → State → Host.Outcome State Fault Refusal) (s : State) :
    Host.Outcome State Fault Refusal :=
  mapNext State.advance (edgeRegisters run s)

/-- One edge of the reference engine (R150): an accepted RAND of k ≥ 2 steps takes k edges. -/
def clockEdge (s : State) : Host.Outcome State Fault Refusal := edge engineAccept s

/-- `n` edges of the reference engine. -/
def clockEdges : Nat → State → Host.Outcome State Fault Refusal
  | 0, s => .next s
  | n + 1, s =>
    match clockEdge s with
    | .next t => clockEdges n t
    | .fault r => .fault r
    | .refused r => .refused r

/-- One step of the machine: an edge at which an accepted command has its whole effect at once, as
the architectural contract has it (R55, R144, spec/90_conflicts.md C4). Log entry 2. -/
def commandEdge (s : State) : Host.Outcome State Fault Refusal := edge exec s

/-- The table word `w` offered at the next step. A word longer than 32 bits does not exist (R77). -/
def State.offerTableWord (s : State) (nbits w : Nat) : State :=
  s.offer (BitVec.ofNat 32 (w % 2 ^ nbits))

end Sys2Proof.Machine
end

