-- ==== Sys2Proof/Machine/Step.lean ====
section
/-! DEFINITION. The step of the machine. -/

namespace Sys2Proof.Machine

/-- One step: `commandEdge`. -/
def step (s : State) : Host.Outcome State Fault Refusal := Sys2Proof.Machine.commandEdge s

/-- `s` with the word offered on the `cmd` port, where `step` takes its next command from. The block
fetches nothing: its commands arrive on the port (spec/20_memory.md R62). Log entry 9. -/
def State.withFetchWord (s : State) (nbits w : Nat) : State :=
  Sys2Proof.Machine.State.offerTableWord s nbits w

end Sys2Proof.Machine
end

