-- ==== Sys2Proof/Machine/Assembler.lean ====
section
/-! DEFINITION. The assembler: host software that turns a command line into the port values of the
command edges it stands for (spec/30_encoding.md R79, R80; spec/92_eei_decisions.md D5, D27, D31). -/

namespace Sys2Proof.Machine

/-- What the assembler reports instead of emitting a command. The first three are R80's. -/
inductive AsmError where
  | invalidState
  | invalidTap
  | invalidLength
  /-- A value outside the range R79 gives it: "the values cannot be encoded". -/
  | cannotEncode
  /-- A line of another form. -/
  | badLine
  deriving DecidableEq, Repr

/-- A line: the three commands (R79) and the three pseudo-instructions (R80). -/
inductive AsmLine where
  | load (len fill taps : Int)
  | step
  | rand (k : Int)
  | new (bits taps : List Int)
  | stepN (m : Int)
  | randW (k : Int)
  deriving DecidableEq, Repr

/-- The port values that issue a command with its operand ports (R79). -/
def issuePorts {n : Nat} (i : Instr) (fill taps : BitVec n) : Ports n :=
  ⟨false, true, encode i, fill, taps⟩

/-- `F = sum over i of b_i << (n-1-i)` (R80). -/
def newFill : List Int → Nat
  | [] => 0
  | b :: rest => b.toNat * 2 ^ rest.length + newFill rest

/-- `T = XOR over j of (1 << t_j)` (R80): a tap listed an even number of times cancels. -/
def newTaps (n : Nat) (ts : List Int) : BitVec n :=
  ts.foldr (fun t m => m ^^^ (1#n <<< t.toNat)) 0

/-- `NEW` (R80). Its own reports come in the order R80 lists them (log entry 15). A fill wider than
the port, which R80 still assembles, is cut to the port's width (log entry 15). -/
def assembleNew (n : Nat) (bits taps : List Int) : Except AsmError (List (Ports n)) :=
  if bits.any fun b => b != 0 && b != 1 then .error .invalidState
  else if taps.any fun t => decide (t < 0) || decide ((n : Int) ≤ t) then .error .invalidTap
  else if 65535 < bits.length then .error .invalidLength
  else .ok [issuePorts (.load bits.length) (BitVec.ofNat n (newFill bits)) (newTaps n taps)]

/-- The `k`s of the RANDs `RANDW k` expands to: `k = q*K_MAX + r` (R80). For k = 0 there is none (log entry
17). -/
def randWPlan (kMax k : Nat) : List Nat :=
  List.replicate (k / kMax) kMax ++ if k % kMax = 0 then [] else [k % kMax]

/-- The host's value V over the (K, RESULT) pairs of a `RANDW`: "it starts at 0, and after each RAND
with K = j it sets `V <- V * 2^j + result`" (R80). -/
def hostFold (rs : List (Nat × Nat)) : Nat := rs.foldl (fun v r => v * 2 ^ r.1 + r.2) 0

/-- A number fits an operand port of `n` bits. -/
def fitsPort (n : Nat) (v : Int) : Bool := decide (0 ≤ v) && decide (v < 2 ^ n)

/-- The assembler (R79, R80). STEP and RAND leave the operand ports at 0; they are ignored (R75). -/
def assemble (p : Params) : AsmLine → Except AsmError (List (Ports p.nMax))
  | .load len fill taps =>
    if 0 ≤ len ∧ len ≤ 65535 ∧ fitsPort p.nMax fill ∧ fitsPort p.nMax taps then
      .ok [issuePorts (.load len.toNat) (BitVec.ofInt _ fill) (BitVec.ofInt _ taps)]
    else .error .cannotEncode
  | .step => .ok [issuePorts .step 0 0]
  | .rand k =>
    if (Instr.rand k).wellFormed then .ok [issuePorts (.rand k) 0 0] else .error .cannotEncode
  | .new bits taps => assembleNew p.nMax bits taps
  | .stepN m =>
    if 0 ≤ m then .ok (List.replicate m.toNat (issuePorts .step 0 0)) else .error .cannotEncode
  | .randW k =>
    if 0 ≤ k then .ok ((randWPlan p.kMax k.toNat).map fun j => issuePorts (.rand j) 0 0)
    else .error .cannotEncode

/-- The host drives these port values from the next step on (R40). -/
def State.drive (s : State) : List (Ports s.params.nMax) → State
  | [] => s
  | p :: rest => { s with ports := p, script := rest }

/-! ## Reading a line

"One command per line. Mnemonics are upper case; a number is decimal, `0x` hexadecimal or `0b`
binary" (R79). Where R79 is silent (spaces, letter case of hexadecimal digits) see log entry 14. -/

/-- The pieces of a line. -/
inductive Token where
  | word (cs : List Char)
  | comma
  | lbrack
  | rbrack
  deriving DecidableEq, Repr

/-- The word read so far, if any (`cur` holds it backwards). -/
def flushWord (cur : List Char) : List Token := if cur.isEmpty then [] else [.word cur.reverse]

/-- The tokens of a line; spaces separate words. -/
def tokens : List Char → List Char → List Token
  | cur, [] => flushWord cur
  | cur, c :: cs =>
    if c = ' ' then flushWord cur ++ tokens [] cs
    else if c = ',' then flushWord cur ++ .comma :: tokens [] cs
    else if c = '[' then flushWord cur ++ .lbrack :: tokens [] cs
    else if c = ']' then flushWord cur ++ .rbrack :: tokens [] cs
    else tokens (c :: cur) cs

/-- The value of a digit. -/
def digit (c : Char) : Option Nat :=
  let n := c.toNat
  if 48 ≤ n ∧ n ≤ 57 then some (n - 48)
  else if 65 ≤ n ∧ n ≤ 70 then some (n - 55)
  else if 97 ≤ n ∧ n ≤ 102 then some (n - 87)
  else none

/-- The digits of a number in a base, after the value read so far. -/
def digits (base : Nat) : Nat → List Char → Option Nat
  | v, [] => some v
  | v, c :: cs =>
    match digit c with
    | some d => if d < base then digits base (v * base + d) cs else none
    | none => none

/-- An unsigned number (R79). -/
def natural : List Char → Option Nat
  | [] => none
  | '0' :: 'x' :: c :: cs => digits 16 0 (c :: cs)
  | '0' :: 'b' :: c :: cs => digits 2 0 (c :: cs)
  | c :: cs => digits 10 0 (c :: cs)

/-- A number, with a minus sign where it is negative. -/
def number : List Char → Option Int
  | '-' :: cs => (natural cs).map fun n => -(n : Int)
  | cs => (natural cs).map fun n => (n : Int)

/-- One or more numbers with commas between them. -/
def numbers : List Token → Option (List Int)
  | [.word w] => (number w).map fun n => [n]
  | .word w :: .comma :: rest =>
    match number w, numbers rest with
    | some n, some ns => some (n :: ns)
    | _, _ => none
  | _ => none

/-- The numbers of a bracketed list, which may be empty, and the tokens after its bracket. -/
def bracketed : List Token → Option (List Int × List Token)
  | .lbrack :: ts =>
    match (ts.takeWhile (· != .rbrack)), ts.dropWhile (· != .rbrack) with
    | [], .rbrack :: rest => some ([], rest)
    | body, .rbrack :: rest => (numbers body).map fun ns => (ns, rest)
    | _, _ => none
  | _ => none

/-- The two lists of a `NEW`. -/
def newOperands (ts : List Token) : Option AsmLine :=
  match bracketed ts with
  | some (bits, .comma :: rest) =>
    match bracketed rest with
    | some (taps, []) => some (.new bits taps)
    | _ => none
  | _ => none

/-- A line read as a command or a pseudo-instruction. -/
def parseLine (cs : List Char) : Option AsmLine :=
  match tokens [] cs with
  | .word m :: ts =>
    if m = ['N', 'E', 'W'] then newOperands ts
    else if m = ['S', 'T', 'E', 'P'] then if ts.isEmpty then some .step else none
    else
      match numbers ts with
      | some [a] =>
        if m = ['R', 'A', 'N', 'D'] then some (.rand a)
        else if m = ['S', 'T', 'E', 'P', 'N'] then some (.stepN a)
        else if m = ['R', 'A', 'N', 'D', 'W'] then some (.randW a)
        else none
      | some [a, b, c] => if m = ['L', 'O', 'A', 'D'] then some (.load a b c) else none
      | _ => none
  | _ => none

/-- A line of text assembled (R79, R80). -/
def assembleText (p : Params) (cs : List Char) : Except AsmError (List (Ports p.nMax)) :=
  match parseLine cs with
  | some l => assemble p l
  | none => .error .badLine

end Sys2Proof.Machine
end

