-- ==== Sys2Proof/Machine/Outputs.lean ====
section
/-! DEFINITION. What the host can see: the output ports (spec/10_state.md R41), when a sample of one
is defined (spec/70_reset_and_hazards.md R193) and the rendering of the state (R47). All are
functions of the state: reading has no side effect (spec/20_memory.md R57). `none` is a sample that
the spec gives no value (R193, spec/93_implementation_defined.md U2), log entry 7. -/

namespace Sys2Proof.Machine

/-- The `done` port (R191). -/
def State.donePort (s : State) : Bool := s.done

/-- `status`, `result` and `state_q` are defined "only while `cmd_ready = 1`, or in the `done`
cycle" (R193). -/
def State.resultsDefined (s : State) : Bool := s.cmdReady || s.done

/-- `taps_q`, `len_q` and `loaded` are defined "whenever `rst = 0`" (R193), and in the `done` cycle
(R191). -/
def State.configDefined (s : State) : Bool := !s.ports.rst || s.done

/-- A sample of a port driven from a register: its value where the sample is defined. -/
def sampled {α : Type} (defined : Bool) (v : α) : Option α := if defined then some v else none

/-- The `status` port. -/
def State.statusPort (s : State) : Option (BitVec 3) := sampled s.resultsDefined s.status

/-- The `result` port. -/
def State.resultPort (s : State) : Option (BitVec s.params.kMax) :=
  sampled s.resultsDefined s.result

/-- The `state_q` port. -/
def State.statePort (s : State) : Option (BitVec s.params.nMax) := sampled s.resultsDefined s.state

/-- The `taps_q` port. -/
def State.tapsPort (s : State) : Option (BitVec s.params.nMax) := sampled s.configDefined s.taps

/-- The `len_q` port. -/
def State.lenPort (s : State) : Option Half := sampled s.configDefined s.len

/-- The `loaded` port. -/
def State.loadedPort (s : State) : Option Bool := sampled s.configDefined s.loaded

/-- The source's `state[i]`: `STATE[(LEN-1) - i]` (spec/00_scope.md R10). -/
def State.arrayBit (s : State) (i : Nat) : Bool := s.state.getLsbD ((s.len.toNat - 1) - i)

/-- The text of the state, leftmost array element first (R47). -/
def State.render (s : State) : List Char :=
  (List.range s.len.toNat).map fun i => if s.arrayBit i then '1' else '0'

/-- The tap set, rendered as the positions t with `taps_q[t]` = 1 (R47), lowest first (log entry 19). -/
def State.renderTaps (s : State) : List Nat :=
  (List.range s.params.nMax).filter fun t => s.taps.getLsbD t

end Sys2Proof.Machine
end

