-- ==== Sys2Proof/Machine/Source.lean ====
section
/-! DEFINITION. The source's own Register, in its array form: the operations the commands stand for
(spec/10_state.md R42, spec/40_load.md R100, spec/41_step.md R120 to R123, spec/42_rand.md R140).
Claims compare the hardware with it. -/

namespace Sys2Proof.Machine

/-- The source's errors (spec/60_exceptions.md R161). -/
inductive SourceError where
  | invalidState
  | invalidTap
  | invalidArgument
  deriving DecidableEq, Repr

/-- The source's object: `state`, index 0 leftmost, and the taps as listed. -/
structure Register where
  bits : List Bool
  taps : List Nat
  deriving DecidableEq, Repr

/-- `new(fill, taps)` (R100): each fill element is 0 or 1, each tap is in [0, n-1]. Two points the source
leaves open are DESIGN CHOICES of the model: a bad fill is reported before a bad tap (log entry 20), and
an empty fill, for which R100's `n ≥ 1` names no error, is not refused (log entry 21). -/
def Register.new (fill taps : List Int) : Except SourceError Register :=
  if fill.any fun b => b != 0 && b != 1 then .error .invalidState
  else if taps.any fun t => decide (t < 0) || decide ((fill.length : Int) ≤ t) then
    .error .invalidTap
  else .ok ⟨fill.map (· == 1), taps.map Int.toNat⟩

/-- `state[(n-1) - t]`, the bit tap `t` reads (R10, R122). -/
def Register.tapped (r : Register) (t : Nat) : Bool := r.bits.getD ((r.bits.length - 1) - t) false

/-- The XOR over the tap positions of the state before the shift (R120; spec/90_conflicts.md C1: a
tap listed twice counts twice). -/
def Register.newBit (r : Register) : Bool := r.taps.foldr (fun t b => xor b (r.tapped t)) false

/-- "remove the element at index 0 …; append `new_bit` at the new tail" (R123). -/
def Register.shift (r : Register) : Register := { r with bits := r.bits.tail ++ [r.newBit] }

/-- The loop of `rand` from the accumulator `acc`: "multiply the accumulator by 2 …, call `step()`,
and add its returned bit" (R140), over integers of any size. -/
def Register.randFrom : Nat → Register → Nat → Nat × Register
  | 0, r, acc => (acc, r)
  | k + 1, r, acc => Register.randFrom k r.shift (2 * acc + r.newBit.toNat)

/-- `rand(k)` (R140, R142): the integer and the register after it. -/
def Register.rand (k : Int) (r : Register) : Except SourceError (Nat × Register) :=
  if k < 0 then .error .invalidArgument else .ok (Register.randFrom k.toNat r 0)

/-- `to_string`: the state in index order (R47). -/
def Register.render (r : Register) : List Char := r.bits.map fun b => if b then '1' else '0'

end Sys2Proof.Machine
end

