-- ==== Sys2Proof/Safety.lean ====
section
/-! DEFINITION. The terms claims use: the invariants of the block (spec/10_state.md R45, R46), runs of
commands, what "the same registers" means, and when a hardware state stands for a Register of the
source (spec/00_scope.md R10). -/

namespace Sys2Proof.Machine

/-! ## Invariants -/

/-- `v & ~ones(len) = 0`: no bit of `v` at or above position `len` (R45). -/
abbrev Within {w : Nat} (len : Nat) (v : BitVec w) : Prop := v &&& ~~~ones w len = 0

/-- R45's three clauses. The model keeps them while BUSY too. -/
abbrev State.LoadedInv (s : State) : Prop :=
  1 ≤ s.len.toNat ∧ s.len.toNat ≤ s.params.nMax ∧ Within s.len.toNat s.state ∧
    Within s.len.toNat s.taps

/-- R46: the registers of an unloaded block, and the codes its STATUS may hold. -/
abbrev State.UnloadedInv (s : State) : Prop :=
  s.state = 0 ∧ s.taps = 0 ∧ s.len = 0 ∧ s.result = 0 ∧
    (s.status = 0 ∨ s.status = 1 ∨ s.status = 2 ∨ s.status = 4 ∨ s.status = 5 ∨ s.status = 6)

/-- The engine's registers while BUSY: a register is loaded, CNT steps are left of a RAND of at most
K_MAX steps, and ACC holds no more bits than the steps already made (spec/42_rand.md R143, R150). -/
abbrev State.BusyInv (s : State) : Prop :=
  s.loaded = true ∧ 1 ≤ s.cnt.toNat ∧ s.cnt.toNat < s.params.kMax ∧
    s.acc.toNat < 2 ^ (s.params.kMax - s.cnt.toNat)

/-- The invariant of the block: R45, R46, STATUS never 7 (R160), and the engine's registers. -/
structure State.Inv (s : State) : Prop where
  loaded : s.loaded = true → s.LoadedInv
  unloaded : s.loaded = false → s.UnloadedInv
  status : s.status ≠ 7
  busy : s.busy = true → s.BusyInv
  idle : s.busy = false → s.cnt = 0

/-! ## Runs of commands -/

/-- The commands of a list, one after the other, each on the state the one before it left (R58). The
operand ports stay as they are, so this is for lists of STEP and RAND. -/
def runCommands : List Instr → State → Host.Outcome State Fault Refusal
  | [], s => .next s
  | i :: rest, s =>
    match exec i s with
    | .next t => runCommands rest t
    | .fault r => .fault r
    | .refused r => .refused r

/-- `n` steps of the machine. -/
def runMachine : Nat → State → Host.Outcome State Fault Refusal
  | 0, s => .next s
  | n + 1, s =>
    match step s with
    | .next t => runMachine n t
    | .fault r => .fault r
    | .refused r => .refused r

/-- `m` successive STEPs. -/
def runSteps (m : Nat) (s : State) : Host.Outcome State Fault Refusal :=
  runCommands (List.replicate m .step) s

/-- The bits that `m` successive STEPs return, in order: RESULT[0] after each (R125). -/
def returnedBits : Nat → State → List Bool
  | 0, _ => []
  | m + 1, s =>
    match exec .step s with
    | .next t => t.result.getLsbD 0 :: returnedBits m t
    | .fault _ => []
    | .refused _ => []

/-- b_j, the bit the j-th of successive STEPs returns (R130, R141); j counts from 1. -/
def returnedBit (j : Nat) (s : State) : Bool := (returnedBits j s).getD (j - 1) false

/-- "Folding the bits most-significant-first" (R145): the integer of a list of bits. -/
def foldBits (bs : List Bool) : Nat := bs.foldl (fun v b => 2 * v + b.toNat) 0

/-- The commands `RANDW k` expands to (R80). -/
def randWCommands (kMax k : Nat) : List Instr := (randWPlan kMax k).map fun j => .rand j

/-- The (K, RESULT) pairs the host sees over a list of RANDs with these `k`s (R80), and the state
after them. `none` if a command stops. -/
def randResults : List Nat → State → Option (List (Nat × Nat) × State)
  | [], s => some ([], s)
  | k :: rest, s =>
    match exec (.rand k) s with
    | .next t => (randResults rest t).map fun r => ((k, t.result.toNat) :: r.1, r.2)
    | .fault _ => none
    | .refused _ => none

/-! ## Comparing states -/

/-- The registers alone: the host's ports and script put aside. -/
def State.registers (s : State) : State :=
  { s with ports := Ports.quiet s.params.nMax, script := [] }

/-- What R26 calls the architectural registers: the engine's registers and `done` put aside too. -/
def State.architectural (s : State) : State :=
  { s.registers with busy := false, cnt := 0, acc := 0, done := false }

/-- The host asserts `rst` neither now nor at the next `n` steps. -/
def State.noResetFor (n : Nat) (s : State) : Prop :=
  s.ports.rst = false ∧ ∀ p ∈ s.script.take n, p.rst = false

/-! ## The source's Register -/

/-- The state stands for the source's Register `r` (R10): a register is loaded, LEN is its length,
`state[i]` is array bit i, and the mask holds each position listed an odd number of times
(R80, spec/90_conflicts.md C1). -/
structure State.Represents (s : State) (r : Register) : Prop where
  loaded : s.loaded = true
  length : s.len.toNat = r.bits.length
  bits : ∀ i, (h : i < r.bits.length) → s.arrayBit i = r.bits[i]
  taps : ∀ t, s.taps.getLsbD t = decide (r.taps.count t % 2 = 1)

end Sys2Proof.Machine
end

