-- ==== Sys2Proof/Certificates/Slice0/Obligations.lean ====
section
/-! DEFINITION. The statements about the LFSR core, for the provers. Each docstring names the rules of
spec/ it formalises. -/

open Sys2Proof Sys2Proof.Machine

/-! ## Encoding -/

/-- Words written out from the formats of R70 to R73 (the vectors of spec/95_test_vectors.md
section 2.4) decode as the spec says. -/
def Obligations.SpecWordsDecode : Prop :=
  decode 0x000B0001#32 = some (.load 11) ∧ decode 0x00000001#32 = some (.load 0) ∧
    decode 0xFFFF0001#32 = some (.load 65535) ∧ decode 0x00000002#32 = some .step ∧
    decode 0x00080003#32 = some (.rand 8) ∧ decode 0xFFFF0003#32 = some (.rand (-1)) ∧
    decode 0x7FFF0003#32 = some (.rand 32767) ∧ decode 0x80000003#32 = some (.rand (-32768)) ∧
    decode 0x00000000#32 = none ∧ decode 0x00000005#32 = none ∧ decode 0x00010002#32 = none ∧
    decode 0x0000FFFF#32 = none

/-- Decode and encode are inverse to each other on the well-formed commands, and every word that
decodes is the encoding of the command it decodes to (R76, R79). -/
def Obligations.DecodeAndEncodeAgree : Prop :=
  (∀ (w : CmdWord) (i : Instr), decode w = some i ↔ i.WF ∧ encode i = w) ∧
    ∀ i : Instr, i.WF → decodeTableWord 32 (encode i).toNat = some i

/-- R76's list of the illegal words: OP = 00, RSV not 0, or OP = 10 with IMM16 not 0. The fields are
those of R70. -/
def Obligations.IllegalWordsAreExactlyTheReservedOnes : Prop :=
  ∀ w : CmdWord, decode w = none ↔
    w.extractLsb' 0 2 = 0#2 ∨ w.extractLsb' 2 14 ≠ 0#14 ∨
      (w.extractLsb' 0 2 = 2#2 ∧ w.extractLsb' 16 16 ≠ 0#16)

/-- R78: the three rows as match and mask, the field of each, no overlap, and ILLEGAL for every word
that matches no row. A floor division of the word by 2^16 is its upper half. -/
def Obligations.OpcodeMapDecides : Prop :=
  ∀ w : CmdWord,
    (w &&& 0x0000FFFF#32 = 0x00000001#32 ↔ decode w = some (.load (w.toNat / 65536))) ∧
    (w &&& 0xFFFFFFFF#32 = 0x00000002#32 ↔ decode w = some .step) ∧
    (w &&& 0x0000FFFF#32 = 0x00000003#32 ↔ decode w = some (.rand (w.toInt / 65536))) ∧
    (opcodeMap.countP fun r => r.covers w) ≤ 1 ∧
    (decode w = none ↔ ∀ r ∈ opcodeMap, w &&& r.maskBits ≠ r.matchBits) ∧
    ∀ i, decode w = some i → ∃ r ∈ opcodeMap, r.mnemonic = i.mnemonic ∧
      w &&& r.maskBits = r.matchBits

/-! ## The step of the machine -/

/-- A step at which a word is accepted (`rst` = 0, `cmd_valid` = 1, `cmd_ready` = 1: R40) and decodes
to `i` is `exec i`, after which the host drives its next port values. `withFetchWord` offers a word
so. -/
def Obligations.StepRunsTheDecodedCommand : Prop :=
  ∀ (s : State) (i : Instr),
    (s.accepts = true → decode s.ports.cmd = some i →
      ∃ t, exec i s = .next t ∧ step s = .next t.advance) ∧
    ∀ w : CmdWord, decode w = some i →
      ∃ t, exec i (s.offer w) = .next t ∧ step (s.withFetchWord 32 w.toNat) = .next t.advance

/-- The model's own (log entry 3): moving the host's ports changes no register. -/
def Obligations.AdvanceMovesOnlyTheHostsPorts : Prop :=
  ∀ s : State, s.advance.registers = s.registers ∧
    (s.script = [] → s.advance.ports.rst = false ∧ s.advance.ports.cmdValid = false ∧
      s.advance.script = []) ∧
    ∀ p rest, s.script = p :: rest → s.advance = { s with ports := p, script := rest }

/-- R165: an accepted word that decodes to ILLEGAL raises ILLEGAL_COMMAND (code 6) before any other
condition, whether or not LOADED = 1. -/
def Obligations.IllegalWordRaisesIllegalCommand : Prop :=
  ∀ s : State, s.accepts = true → decode s.ports.cmd = none →
    step s = .next ({ s with status := 6, done := true } : State).advance

/-- At an edge with BUSY = 1 (so `cmd_ready` = 0) and `rst` = 0 the block samples nothing: whatever
the host drives, the registers take the same values (R190, R194). -/
def Obligations.NothingIsSampledWhileBusy : Prop :=
  ∀ (s : State) (p : Ports s.params.nMax), s.busy = true → s.ports.rst = false → p.rst = false →
    s.cmdReady = false ∧
    ∃ t u, step s = .next t ∧ step { s with ports := p } = .next u ∧ t.registers = u.registers ∧
      clockEdge s = .next t ∧ clockEdge { s with ports := p } = .next u

/-- An idle block with no command offered holds its state; only `done` falls (R176, R191). -/
def Obligations.IdleBlockHoldsItsState : Prop :=
  ∀ s : State, s.ports.rst = false → s.busy = false → s.ports.cmdValid = false →
    step s = .next ({ s with done := false } : State).advance ∧
      clockEdge s = .next ({ s with done := false } : State).advance

/-- Commands run one at a time in the order they are accepted, each on the whole effect of those before
it and on nothing of those after it (R58, R190): driving a list of STEPs and RANDs, one a step, leaves
the architectural registers as running the commands of the list does. -/
def Obligations.CommandsRunInAcceptanceOrder : Prop :=
  ∀ (s : State) (is : List Instr), s.busy = false →
    (∀ i ∈ is, i.WF ∧ ∀ n, i ≠ .load n) →
    ∃ t u, runMachine is.length (s.drive (is.map fun i => issuePorts i 0 0)) = .next t ∧
      runCommands is s = .next u ∧ t.architectural = u.architectural

/-! ## Reset -/

/-- R180: at every edge with `rst` = 1 each register takes its reset value, and `cmd_ready` = 0. -/
def Obligations.ResetEdgeClearsEveryRegister : Prop :=
  ∀ s : State, s.ports.rst = true → s.cmdReady = false ∧ s.accepts = false ∧
    ∃ t, step s = .next t ∧ clockEdge s = .next t ∧ t.params = s.params ∧ t.state.toNat = 0 ∧
      t.taps.toNat = 0 ∧ t.len = 0 ∧ t.loaded = false ∧ t.result.toNat = 0 ∧ t.status = 0 ∧
      t.busy = false ∧ t.cnt = 0 ∧ t.acc.toNat = 0 ∧ t.done = false

/-- A running RAND is abandoned by reset, with no result and no `done` pulse, and by nothing else: with
`rst` = 0 the engine goes on, or completes with OK (R182, R150). -/
def Obligations.OnlyResetStopsARunningRand : Prop :=
  ∀ s : State, s.busy = true → ∃ t, step s = .next t ∧ clockEdge s = .next t ∧
    (s.ports.rst = true → t.busy = false ∧ t.done = false ∧ t.state.toNat = 0 ∧
      t.result.toNat = 0 ∧ t.loaded = false) ∧
    (s.ports.rst = false → (t.busy = true ∧ t.done = false ∧ t.cnt = s.cnt - 1 ∧
        t.result.toNat = s.result.toNat) ∨
      (s.cnt = 1 ∧ t.busy = false ∧ t.done = true ∧ t.status = 0 ∧
        t.result.toNat = t.acc.toNat))

/-- R181: each register and engine field after reset, for every value of the parameters. -/
def Obligations.ResetStateIsAsSpecified : Prop :=
  ∀ s : State, s = State.reset ∨ (∃ p : Params, s = State.resetOf p) →
    s.state = 0 ∧ s.taps = 0 ∧ s.len = 0 ∧ s.loaded = false ∧ s.result = 0 ∧ s.status = 0 ∧
      s.busy = false ∧ s.cnt = 0 ∧ s.acc = 0 ∧ s.done = false

/-! ## Invariants -/

/-- The invariant holds at reset, for every value of the parameters (R45, R46). -/
def Obligations.ResetMeetsTheInvariant : Prop :=
  (∀ p : Params, (State.resetOf p).Inv) ∧ State.reset.Inv

/-- R45 and R46, with the engine's clauses: every step of the machine answers a next state and keeps
the invariant. -/
def Obligations.StepKeepsTheInvariant : Prop :=
  ∀ s : State, s.Inv → ∃ t, step s = .next t ∧ t.Inv

/-- The same of every edge of the reference engine (R150). -/
def Obligations.ClockEdgeKeepsTheInvariant : Prop :=
  ∀ s : State, s.Inv → ∃ t, clockEdge s = .next t ∧ t.Inv

/-! ## LOAD -/

/-- R101: a length of 0 or above N_MAX raises INVALID_LENGTH, whatever fill and taps are. -/
def Obligations.LoadRefusesABadLength : Prop :=
  ∀ (s : State) (n : Nat), n = 0 ∨ s.params.nMax < n →
    exec (.load n) s = .next { s with status := 4, done := true }

/-- R102: a fill with a 1 at a position at or above LEN_in, that is `(fill & ~ones(LEN_in)) != 0`,
raises INVALID_STATE. -/
def Obligations.LoadRefusesAFillOutsideItsLength : Prop :=
  ∀ (s : State) (n : Nat), 1 ≤ n → n ≤ s.params.nMax →
    ((∃ p, n ≤ p ∧ s.ports.fill.getLsbD p = true) ↔
      s.ports.fill &&& ~~~ones s.params.nMax n ≠ 0) ∧
    ((∃ p, n ≤ p ∧ s.ports.fill.getLsbD p = true) →
      exec (.load n) s = .next { s with status := 1, done := true })

/-- R103: with a good fill, a tap at a position at or above LEN_in, that is
`(taps & ~ones(LEN_in)) != 0`, raises INVALID_TAP. -/
def Obligations.LoadRefusesATapOutsideItsLength : Prop :=
  ∀ (s : State) (n : Nat), 1 ≤ n → n ≤ s.params.nMax →
    (∀ p, n ≤ p → s.ports.fill.getLsbD p = false) →
    ((∃ p, n ≤ p ∧ s.ports.taps.getLsbD p = true) ↔
      s.ports.taps &&& ~~~ones s.params.nMax n ≠ 0) ∧
    ((∃ p, n ≤ p ∧ s.ports.taps.getLsbD p = true) →
      exec (.load n) s = .next { s with status := 2, done := true })

/-- A LOAD whose operands pass the three checks completes (R104): STATE, TAPS and LEN take the
operands, LOADED is 1, RESULT is 0, STATUS is OK, and every other register stays. Whatever was loaded
before is discarded (R105); an empty tap mask and a zero fill are legal (R106). -/
def Obligations.LoadConstructsTheRegister : Prop :=
  ∀ (s : State) (n : Nat), 1 ≤ n → n ≤ s.params.nMax →
    (∀ p, n ≤ p → s.ports.fill.getLsbD p = false) →
    (∀ p, n ≤ p → s.ports.taps.getLsbD p = false) →
    exec (.load n) s = .next
      { s with
        state := s.ports.fill, taps := s.ports.taps, len := BitVec.ofNat 16 n, loaded := true,
        result := 0, status := 0, done := true } ∧
    (BitVec.ofNat 16 n : Half).toNat = n

/-- Within a lifetime TAPS, LEN and LOADED do not change: an edge without reset writes them only where
it accepts a LOAD that ends with OK (R105, R21, R22, R23). -/
def Obligations.OnlyALoadOrResetWritesTheConfiguration : Prop :=
  ∀ s t : State, (step s = .next t ∨ clockEdge s = .next t) → s.ports.rst = false →
    (∀ n, s.accepts = true → decode s.ports.cmd = some (.load n) → t.status ≠ 0) →
    t.params = s.params ∧ t.taps.toNat = s.taps.toNat ∧ t.len = s.len ∧ t.loaded = s.loaded

/-! ## STEP -/

/-- On a loaded register STEP completes with STATE' as R123 gives it, bit by bit; `fb` is the XOR of
the tapped bits of the state before the shift (R120): whether their number is odd. RESULT is `fb`,
STATUS is OK, and every other register stays. -/
def Obligations.StepShiftsInTheFeedbackBit : Prop :=
  ∀ s : State, s.loaded = true → s.LoadedInv →
    ∃ (x : BitVec s.params.nMax) (fb : Bool),
      exec .step s = .next
        { s with
          state := x, result := BitVec.ofNat s.params.kMax fb.toNat, status := 0, done := true } ∧
      (fb = true ↔ ((Finset.range s.params.nMax).filter fun t =>
        s.state.getLsbD t = true ∧ s.taps.getLsbD t = true).card % 2 = 1) ∧
      x = (((s.state.setWidth (s.params.nMax + 1) <<< 1) |||
        BitVec.ofNat (s.params.nMax + 1) fb.toNat) &&&
          (ones s.params.nMax s.len.toNat).setWidth (s.params.nMax + 1)).setWidth s.params.nMax ∧
      x.getLsbD 0 = fb ∧
      (∀ p, 1 ≤ p → p ≤ s.len.toNat - 1 → x.getLsbD p = s.state.getLsbD (p - 1)) ∧
      ∀ p, s.len.toNat ≤ p → x.getLsbD p = false

/-- R125: after a successful STEP RESULT[0] is `fb` and STATE[0], and RESULT's other bits are 0. -/
def Obligations.StepReturnsTheNewBit : Prop :=
  ∀ s : State, s.loaded = true → s.LoadedInv →
    ∃ t, exec .step s = .next t ∧ t.status = 0 ∧ t.result.getLsbD 0 = s.fb ∧
      t.state.getLsbD 0 = s.fb ∧ ∀ j, 1 ≤ j → t.result.getLsbD j = false

/-- R164: a STEP or RAND with LOADED = 0 raises NOT_LOADED (code 5). -/
def Obligations.UnloadedStepAndRandAreRefused : Prop :=
  ∀ s : State, s.loaded = false →
    exec .step s = .next { s with status := 5, done := true } ∧
    ∀ k : Int, exec (.rand k) s = .next { s with status := 5, done := true }

/-- R121: with TAPS = 0 every STEP returns and shifts in 0, and after LEN steps STATE is 0. -/
def Obligations.EmptyTapsDrainTheRegister : Prop :=
  ∀ s : State, s.loaded = true → s.LoadedInv → s.taps = 0 →
    ∀ m, ∃ t, runSteps m s = .next t ∧
      (1 ≤ m → t.result.toNat = 0 ∧ t.state.getLsbD 0 = false) ∧
      (s.len.toNat ≤ m → t.state.toNat = 0)

/-- R122: a mask with the one tap t makes STEP return STATE[t], the source's `state[(n-1)-t]`. -/
def Obligations.TapReadsItsArrayElement : Prop :=
  ∀ (s : State) (t : Nat), s.loaded = true → s.LoadedInv → t < s.len.toNat →
    s.taps = 1#s.params.nMax <<< t →
    ∃ u, exec .step s = .next u ∧ u.result.getLsbD 0 = s.state.getLsbD t ∧
      u.result.getLsbD 0 = s.arrayBit ((s.len.toNat - 1) - t)

/-- R126: two loaded registers with the same STATE, TAPS and LEN return the same bits and hold the
same STATE for any number of STEPs, whatever else differs; and no STEP fails. -/
def Obligations.StepDependsOnTheRegisterAlone : Prop :=
  ∀ s u : State, s.params = u.params → s.loaded = true → u.loaded = true →
    s.state.toNat = u.state.toNat → s.taps.toNat = u.taps.toNat → s.len = u.len →
    ∀ m, ∃ s' u', runSteps (m + 1) s = .next s' ∧ runSteps (m + 1) u = .next u' ∧
      s'.state.toNat = u'.state.toNat ∧ s'.result.toNat = u'.result.toNat ∧
      s'.status = 0 ∧ u'.status = 0

/-- R127: the zero state is absorbing under every TAPS; more generally a state whose tapped bits XOR
to 0 shifts in a 0. -/
def Obligations.ZeroStateIsAbsorbing : Prop :=
  ∀ s : State, s.loaded = true →
    (s.state = 0 →
      exec .step s = .next { s with state := 0, result := 0, status := 0, done := true }) ∧
    (((Finset.range s.params.nMax).filter fun t =>
        s.state.getLsbD t = true ∧ s.taps.getLsbD t = true).card % 2 = 0 →
      ∃ t, exec .step s = .next t ∧ t.result.toNat = 0 ∧ t.state.getLsbD 0 = false)

/-- R128: under repeated STEP the sequence of STATE values is eventually periodic, with a period of at
most 2^LEN - 1. -/
def Obligations.StepsAreEventuallyPeriodic : Prop :=
  ∀ s : State, s.loaded = true → s.LoadedInv →
    ∃ m p, 1 ≤ p ∧ p ≤ 2 ^ s.len.toNat - 1 ∧
      ∀ j, m ≤ j → ∃ t u, runSteps j s = .next t ∧ runSteps (j + p) s = .next u ∧
        t.state.toNat = u.state.toNat

/-- R129's first sentence: STEP is a bijection on the states of a length exactly when TAPS[LEN-1] = 1.
-/
def Obligations.StepIsABijectionExactlyWithTheTopTap : Prop :=
  ∀ s : State, s.loaded = true → s.LoadedInv →
    ((∀ y : BitVec s.params.nMax, Within s.len.toNat y →
        ∃! x : BitVec s.params.nMax, Within s.len.toNat x ∧
          ∃ t, exec .step { s with state := x } = .next t ∧ t.state.toNat = y.toNat) ↔
      s.taps.getLsbD (s.len.toNat - 1) = true)

/-- With TAPS[LEN-1] = 1 every state lies on a cycle of at most 2^LEN - 1 steps, and the departing bit
is `fb XOR parity(STATE & TAPS & ones(LEN-1))`; without that tap, two states that differ only in bit
LEN-1 have the same successor (R129, R128). -/
def Obligations.EveryStateIsOnACycleWithTheTopTap : Prop :=
  ∀ s : State, s.loaded = true → s.LoadedInv →
    (s.taps.getLsbD (s.len.toNat - 1) = true →
      s.state.getLsbD (s.len.toNat - 1) =
        xor s.fb (parity (s.state &&& s.taps &&& ones s.params.nMax (s.len.toNat - 1))) ∧
      ∃ p, 1 ≤ p ∧ p ≤ 2 ^ s.len.toNat - 1 ∧
        ∃ t, runSteps p s = .next t ∧ t.state.toNat = s.state.toNat) ∧
    (s.taps.getLsbD (s.len.toNat - 1) = false →
      ∃ t u, exec .step s = .next t ∧
        exec .step { s with state := s.state ^^^ 1#s.params.nMax <<< (s.len.toNat - 1) } = .next u ∧
        t.state.toNat = u.state.toNat ∧ t.result.toNat = u.result.toNat)

/-- R130: with b_j the bit the j-th STEP returns (1 ≤ j) and b_{-q} = fill[q], bit q of the loaded STATE,
after j steps STATE[p] is b_{j-p}, and b_{j+1} is the XOR of b_{j-t} over the taps t. -/
def Obligations.ReturnedBitsFollowTheRecurrence : Prop :=
  ∀ s : State, s.loaded = true → s.LoadedInv →
    ∀ j, ∃ u, runSteps j s = .next u ∧
      (∀ p, p < s.len.toNat →
        u.state.getLsbD p = if p < j then returnedBit (j - p) s else s.state.getLsbD (p - j)) ∧
      (returnedBit (j + 1) s = true ↔ ((Finset.range s.params.nMax).filter fun t =>
        s.taps.getLsbD t = true ∧
          (if t < j then returnedBit (j - t) s else s.state.getLsbD (t - j)) = true).card % 2 = 1)

/-! ## RAND -/

/-- R142: a RAND on a loaded register with K_in < 0 or K_in > K_MAX raises INVALID_ARGUMENT, and
nothing but STATUS changes. -/
def Obligations.RandRefusesABadArgument : Prop :=
  ∀ (s : State) (k : Int), s.loaded = true → k < 0 ∨ (s.params.kMax : Int) < k →
    exec (.rand k) s = .next { s with status := 3, done := true }

/-- R145: for every k in [0, K_MAX], RAND k completes, leaves STATE as k successive STEPs do, and its
RESULT is the fold, most significant bit first, of the k bits those STEPs return. -/
def Obligations.RandEqualsSuccessiveSteps : Prop :=
  ∀ (s : State) (k : Nat), s.loaded = true → k ≤ s.params.kMax →
    ∃ t u, exec (.rand k) s = .next t ∧ runSteps k s = .next u ∧
      t.state.toNat = u.state.toNat ∧ t.status = 0 ∧ (returnedBits k s).length = k ∧
      t.result.toNat = foldBits (returnedBits k s)

/-- RAND's frame: it writes STATE, RESULT and STATUS (R144). That ACC ends as RESULT and CNT as 0 when
a step was made, and neither changes for k = 0, is the model's reading of R30 and R150, log entry 5. -/
def Obligations.RandWritesOnlyItsOwnRegisters : Prop :=
  ∀ (s : State) (k : Nat), s.loaded = true → k ≤ s.params.kMax →
    ∃ (x : BitVec s.params.nMax) (r : BitVec s.params.kMax),
      exec (.rand k) s = .next
        { s with
          state := x, result := r, status := 0, done := true,
          acc := if k = 0 then s.acc else r, cnt := if k = 0 then s.cnt else 0 } ∧
      (∀ p, s.len.toNat ≤ p → 1 ≤ k → x.getLsbD p = false)

/-- R141: RESULT is the sum of b_i * 2^(k-i), and RESULT[k-i] = b_i. -/
def Obligations.RandPutsTheFirstBitHighest : Prop :=
  ∀ (s : State) (k : Nat), s.loaded = true → k ≤ s.params.kMax →
    ∃ t, exec (.rand k) s = .next t ∧
      t.result.toNat = ∑ i ∈ Finset.Icc 1 k, (returnedBit i s).toNat * 2 ^ (k - i) ∧
      ∀ i, 1 ≤ i → i ≤ k → t.result.getLsbD (k - i) = returnedBit i s

/-- R146: after a successful RAND k, RESULT < 2^k and its bits at and above k are 0. -/
def Obligations.RandResultFitsItsBits : Prop :=
  ∀ (s t : State) (k : Int), exec (.rand k) s = .next t → t.status = 0 →
    0 ≤ k ∧ k ≤ s.params.kMax ∧ t.result.toNat < 2 ^ k.toNat ∧
      ∀ j, k.toNat ≤ j → t.result.getLsbD j = false

/-- R147: two RANDs in a row, of a and of b bits, together return the integer one `rand(a+b)` of the
source returns, and leave the same register, for a + b above K_MAX too. -/
def Obligations.RandsConcatenate : Prop :=
  ∀ (s : State) (r : Register) (a b : Nat), s.Represents r → s.LoadedInv →
    a ≤ s.params.kMax → b ≤ s.params.kMax →
    ∃ t u, exec (.rand a) s = .next t ∧ exec (.rand b) t = .next u ∧
      t.status = 0 ∧ u.status = 0 ∧
      t.result.toNat * 2 ^ b + u.result.toNat = (Register.randFrom (a + b) r 0).1 ∧
      u.Represents (Register.randFrom (a + b) r 0).2

/-- R148: for 1 ≤ k ≤ LEN, RAND k leaves RESULT as the low k bits of STATE; for k > LEN this fails. -/
def Obligations.RandResultIsTheLowBitsOfState : Prop :=
  (∀ (s : State) (k : Nat), s.loaded = true → s.LoadedInv → 1 ≤ k → k ≤ s.len.toNat →
    k ≤ s.params.kMax →
    ∃ t, exec (.rand k) s = .next t ∧ t.status = 0 ∧
      t.result.toNat = (t.state &&& ones t.params.nMax k).toNat) ∧
  ∃ (s t : State) (k : Nat), s.loaded = true ∧ s.LoadedInv ∧ s.len.toNat < k ∧
    exec (.rand k) s = .next t ∧ t.status = 0 ∧
    t.result.toNat ≠ (t.state &&& ones t.params.nMax k).toNat

/-- R149: RAND 0 writes RESULT <- 0 and STATUS <- OK and nothing else; RAND 1 and STEP give the same
STATE, RESULT and STATUS. -/
def Obligations.SmallRands : Prop :=
  ∀ s : State, s.loaded = true →
    exec (.rand 0) s = .next { s with result := 0, status := 0, done := true } ∧
    ∃ t u, exec (.rand 1) s = .next t ∧ exec .step s = .next u ∧
      t.state.toNat = u.state.toNat ∧ t.result.toNat = u.result.toNat ∧ t.status = u.status

/-! ## Errors -/

/-- R163: a command that raises an error, a word that decodes to ILLEGAL among them, writes STATUS and
leaves every other register as it was (`done` marks its completion, R191). -/
def Obligations.AnErrorWritesStatusAlone : Prop :=
  ∀ s : State, s.accepts = true →
    ∃ t : State, step s = .next t.advance ∧ t.done = true ∧
      (t.status ≠ 0 → t = { s with status := t.status, done := true })

/-- R166: the one code an accepted word reports, condition by condition, in the order of priority. -/
def Obligations.ErrorsAreReportedInOrder : Prop :=
  ∀ s t : State, s.accepts = true → step s = .next t →
    (decode s.ports.cmd = none → t.status = 6) ∧
    (∀ n, decode s.ports.cmd = some (.load n) →
      t.status =
        if n = 0 ∨ s.params.nMax < n then 4
        else if s.ports.fill &&& ~~~ones s.params.nMax n ≠ 0 then 1
        else if s.ports.taps &&& ~~~ones s.params.nMax n ≠ 0 then 2
        else 0) ∧
    (decode s.ports.cmd = some .step → t.status = if s.loaded = false then 5 else 0) ∧
    ∀ k, decode s.ports.cmd = some (.rand k) →
      t.status =
        if s.loaded = false then 5
        else if k < 0 ∨ (s.params.kMax : Int) < k then 3
        else 0

/-- Every command completes, with `done`, from every state, and every step and every clock edge
answers a next state: nothing stops the machine (R162, R167, R191). -/
def Obligations.EveryCommandCompletes : Prop :=
  (∀ (i : Instr) (s : State), ∃ t, exec i s = .next t ∧ t.done = true ∧ t.status ≠ 7) ∧
    ∀ s : State, (∃ t, step s = .next t) ∧ ∃ t, clockEdge s = .next t

/-! ## What a command reads and leaves alone -/

/-- `cmd_fill` and `cmd_taps` are not operands of STEP and RAND: their values have no effect (R75). -/
def Obligations.StepAndRandIgnoreTheOperandPorts : Prop :=
  ∀ (s : State) (i : Instr) (f g : BitVec s.params.nMax), (∀ n, i ≠ .load n) →
    ∃ t u, exec i s = .next t ∧
      exec i { s with ports := { s.ports with fill := f, taps := g } } = .next u ∧
      u.registers = t.registers

/-- R40's last sentences: a command's architectural effect depends on the command, the operand ports
and the architectural registers, and on nothing else the machine holds. -/
def Obligations.EffectDependsOnOperandsAndRegistersOnly : Prop :=
  ∀ (s : State) (i : Instr) (busy done : Bool) (cnt : Half) (acc : BitVec s.params.kMax)
    (q : Ports s.params.nMax) (script : List (Ports s.params.nMax)),
    q.fill = s.ports.fill → q.taps = s.ports.taps →
    ∃ t u, exec i s = .next t ∧
      exec i { s with busy := busy, done := done, cnt := cnt, acc := acc, ports := q,
                      script := script } = .next u ∧
      u.architectural = t.architectural

/-- The frame of each command, whatever its outcome: no command moves the host's ports or BUSY, STEP
leaves TAPS, LEN, LOADED, CNT and ACC, RAND leaves TAPS, LEN and LOADED, LOAD leaves CNT and ACC (R26,
R124, R144). There is no memory to change. -/
def Obligations.CommandFrames : Prop :=
  ∀ (i : Instr) (s t : State), exec i s = .next t →
    t.params = s.params ∧ t.busy = s.busy ∧
    (∃ (x y : BitVec s.params.nMax) (r a : BitVec s.params.kMax) (l c : Half) (ld d : Bool)
        (st : BitVec 3),
      t = { s with state := x, taps := y, result := r, acc := a, len := l, cnt := c, loaded := ld,
                   done := d, status := st } ∧
      ((∀ n, i ≠ .load n) → y = s.taps ∧ l = s.len ∧ ld = s.loaded) ∧
      ((∀ k, i ≠ .rand k) → c = s.cnt ∧ a = s.acc))

/-! ## The reference engine -/

/-- The reference engine meets the architectural contract (R150, R55, spec/90_conflicts.md C4): k edges
after the acceptance of a RAND k that passes its checks, with `rst` low meanwhile and whatever
commands the host offers, every register holds what one step of the machine gives it. -/
def Obligations.EngineMeetsTheAtomicRand : Prop :=
  ∀ (s : State) (k : Nat), s.accepts = true → decode s.ports.cmd = some (.rand k) →
    s.loaded = true → 1 ≤ k → k ≤ s.params.kMax → s.noResetFor (k - 1) →
    ∃ t u, step s = .next t ∧ clockEdges k s = .next u ∧ u.registers = t.registers

/-- Between acceptance and completion of that RAND, BUSY is 1, `cmd_ready` and `done` are 0, CNT is
the number of steps left, and TAPS, LEN, LOADED, RESULT and STATUS stand as before it (R28, R29, R150,
R191). -/
def Obligations.EngineIsBusyMeanwhile : Prop :=
  ∀ (s : State) (k j : Nat), s.accepts = true → decode s.ports.cmd = some (.rand k) →
    s.loaded = true → k ≤ s.params.kMax → 1 ≤ j → j < k → s.noResetFor (j - 1) →
    ∃ u, clockEdges j s = .next u ∧ u.busy = true ∧ u.cmdReady = false ∧ u.done = false ∧
      u.cnt.toNat = k - j ∧ u.taps.toNat = s.taps.toNat ∧ u.len = s.len ∧ u.loaded = true ∧
      u.result.toNat = s.result.toNat ∧ u.status = s.status

/-- At every other edge the reference engine and the machine do the same: any command but a RAND of
two or more steps that passes its checks completes at its acceptance edge (R150, R192). -/
def Obligations.EngineAgreesOnEveryOtherEdge : Prop :=
  ∀ s : State,
    (∀ k, s.accepts = true → decode s.ports.cmd = some (.rand k) → s.loaded = true →
      k ≤ 1 ∨ (s.params.kMax : Int) < k) →
    clockEdge s = step s

/-- R191: after an edge `done` is 1 exactly when a command completed at it. In the reference engine
that is the last edge of a RAND, or the acceptance of any other command. -/
def Obligations.DoneMarksExactlyTheCompletions : Prop :=
  ∀ s t u : State, step s = .next t → clockEdge s = .next u →
    (t.done = true ↔ s.ports.rst = false ∧ (s.accepts = true ∨ s.busy = true ∧ s.cnt = 1)) ∧
    (u.done = true ↔ s.ports.rst = false ∧
      ((s.accepts = true ∧ ¬∃ k : Int, decode s.ports.cmd = some (.rand k) ∧ s.loaded = true ∧
          2 ≤ k ∧ k ≤ s.params.kMax) ∨
        s.busy = true ∧ s.cnt = 1))

/-! ## Outputs -/

/-- R193: when each output has a defined value, and that it is then its register's (R41). -/
def Obligations.OutputsAreDefinedAtBoundaries : Prop :=
  ∀ s : State,
    (s.cmdReady = true ∨ s.done = true →
      s.statusPort = some s.status ∧ s.resultPort = some s.result ∧
        s.statePort = some s.state) ∧
    (s.busy = true → s.cmdReady = false) ∧
    (s.cmdReady = false → s.done = false →
      s.statusPort = none ∧ s.resultPort = none ∧ s.statePort = none) ∧
    (s.ports.rst = false →
      s.tapsPort = some s.taps ∧ s.lenPort = some s.len ∧ s.loadedPort = some s.loaded)

/-- R47: character i of the text is '1' exactly when STATE[(LEN-1)-i] = 1, which is the source's text;
the rendered taps are the positions t with TAPS[t] = 1. -/
def Obligations.RenderingIsTheSourcesText : Prop :=
  ∀ s : State, s.render.length = s.len.toNat ∧
    (∀ i, i < s.len.toNat →
      s.render[i]? = some (if s.state.getLsbD ((s.len.toNat - 1) - i) then '1' else '0')) ∧
    (∀ r : Register, s.Represents r → s.render = r.render) ∧
    ∀ t, t ∈ s.renderTaps ↔ s.taps.getLsbD t = true

/-! ## The source's Register -/

/-- STEP is the source's `step` (R42, R120, R123): it returns its bit and leaves its register. -/
def Obligations.StepRefinesTheSource : Prop :=
  ∀ (s : State) (r : Register), s.Represents r → s.LoadedInv →
    ∃ t, exec .step s = .next t ∧ t.status = 0 ∧ t.Represents r.shift ∧
      t.result.toNat = r.newBit.toNat

/-- RAND is the source's `rand(k)` for every k up to K_MAX (R42, R140, R142): the same integer and
register, and INVALID_ARGUMENT where the source reports InvalidArgument. -/
def Obligations.RandRefinesTheSource : Prop :=
  ∀ (s : State) (r : Register) (k : Int), s.Represents r → s.LoadedInv → k ≤ s.params.kMax →
    ∃ t, exec (.rand k) s = .next t ∧
      (∀ v r', r.rand k = .ok (v, r') →
        t.status = 0 ∧ t.result.toNat = v ∧ t.Represents r') ∧
      ∀ e, r.rand k = .error e →
        e = .invalidArgument ∧ t.status = 3 ∧ t.Represents r

/-- The assembler's `NEW` with the LOAD it emits is the source's `new` (R42, R80, R100): where the
source constructs a register of a length the block can hold, the block constructs that register. -/
def Obligations.NewRefinesTheSource : Prop :=
  ∀ (s : State) (fill taps : List Int) (r : Register), Register.new fill taps = .ok r →
    1 ≤ fill.length → fill.length ≤ s.params.nMax → s.busy = false →
    ∃ q t, assemble s.params (.new fill taps) = .ok [q] ∧
      step { s with ports := q } = .next t ∧ t.status = 0 ∧ t.Represents r ∧ t.LoadedInv

/-- `RANDW k` gives the source's `rand(k)` for every k, however large (R80, R147). -/
def Obligations.ChainedRandsGiveTheUnboundedRand : Prop :=
  ∀ (s : State) (r : Register) (k : Nat), s.Represents r → s.LoadedInv →
    ∃ rs t, randResults (randWPlan s.params.kMax k) s = some (rs, t) ∧
      hostFold rs = (Register.randFrom k r 0).1 ∧ t.Represents (Register.randFrom k r 0).2

/-- `NEW`'s operand words, bit by bit (R80): fill bit p is array element (n-1)-p, and a tap is set when
it is listed an odd number of times. -/
def Obligations.NewBuildsTheOperandWords : Prop :=
  (∀ bits : List Int, (∀ b ∈ bits, b = 0 ∨ b = 1) → ∀ p, (newFill bits).testBit p =
    (decide (p < bits.length) && decide (bits.getD ((bits.length - 1) - p) 0 = 1))) ∧
  ∀ (n : Nat) (ts : List Int), (∀ t ∈ ts, 0 ≤ t) → ∀ p, (newTaps n ts).getLsbD p =
    (decide (p < n) && decide (ts.count (p : Int) % 2 = 1))

/-- R79: what the assembler emits for a command, that the block decodes it back, and that a value out of
its range is refused. -/
def Obligations.AssembledCommandsDecode : Prop :=
  ∀ p : Params,
    (∀ len fill taps : Nat, len ≤ 65535 → fill < 2 ^ p.nMax → taps < 2 ^ p.nMax →
      ∃ q, assemble p (.load len fill taps) = .ok [q] ∧ q.rst = false ∧ q.cmdValid = true ∧
        decode q.cmd = some (.load len) ∧ q.fill.toNat = fill ∧ q.taps.toNat = taps ∧
        q.cmd.toNat = len * 65536 + 1) ∧
    (∃ q, assemble p .step = .ok [q] ∧ q.cmdValid = true ∧ decode q.cmd = some .step ∧
      q.cmd = 0x00000002#32) ∧
    (∀ k : Int, -32768 ≤ k → k ≤ 32767 →
      ∃ q, assemble p (.rand k) = .ok [q] ∧ q.cmdValid = true ∧ decode q.cmd = some (.rand k) ∧
        (q.cmd.toNat : Int) = k % 65536 * 65536 + 3) ∧
    (∀ k : Int, k < -32768 ∨ 32767 < k → assemble p (.rand k) = .error .cannotEncode) ∧
    ∀ len fill taps : Int, len < 0 ∨ 65535 < len →
      assemble p (.load len fill taps) = .error .cannotEncode
end

