-- ==== Sys2Proof/Laws/Decode.lean ====
section
/-! SUPPORT. What decoding and encoding do, once. -/

namespace Sys2Proof

/-- All that decoding can do (R76). -/
theorem decode_cases (w : CmdWord) :
    (fieldLow w = 0x0001#16 ∧ decode w = some (.load (fieldImm16 w).toNat)) ∨
    (w = 0x00000002#32 ∧ decode w = some .step) ∨
    (fieldLow w = 0x0003#16 ∧ decode w = some (.rand (fieldImm16 w).toInt)) ∨
    (fieldLow w ≠ 0x0001#16 ∧ w ≠ 0x00000002#32 ∧ fieldLow w ≠ 0x0003#16 ∧ decode w = none) := by
  by_cases h1 : fieldLow w = 0x0001#16
  · exact .inl ⟨h1, if_pos h1⟩
  by_cases h2 : w = 0x00000002#32
  · exact .inr (.inl ⟨h2, by rw [decode, if_neg h1, if_pos h2]⟩)
  by_cases h3 : fieldLow w = 0x0003#16
  · exact .inr (.inr (.inl ⟨h3, by rw [decode, if_neg h1, if_neg h2, if_pos h3]⟩))
  · exact .inr (.inr (.inr ⟨h1, h2, h3, by rw [decode, if_neg h1, if_neg h2, if_neg h3]⟩))

/-- A word is its upper half above its lower half (R70). -/
theorem fieldImm16_append_fieldLow (w : CmdWord) : fieldImm16 w ++ fieldLow w = w := by
  apply BitVec.eq_of_getLsbD_eq
  intro i hi
  rw [BitVec.getLsbD_append]
  by_cases h : i < 16
  · simp [h, fieldLow]
  · simp only [h, if_false, fieldImm16, BitVec.getLsbD_extractLsb']
    rw [show 16 + (i - 16) = i by omega]
    simp
    omega

@[simp] theorem fieldLow_append (a b : Half) : fieldLow (a ++ b) = b := by
  apply BitVec.eq_of_getLsbD_eq
  intro i hi
  rw [fieldLow, BitVec.getLsbD_extractLsb', BitVec.getLsbD_append]
  simp [hi]

@[simp] theorem fieldImm16_append (a b : Half) : fieldImm16 (a ++ b) = a := by
  apply BitVec.eq_of_getLsbD_eq
  intro i hi
  rw [fieldImm16, BitVec.getLsbD_extractLsb', BitVec.getLsbD_append]
  simp [hi]

end Sys2Proof
end

