-- ==== Sys2Proof/Laws/Ops.lean ====
section
/-! SUPPORT. What each shared operation does: `ones`, `parity`, `shiftIn`, `collectBit`, `collect`. -/

namespace Sys2Proof

theorem Params.nMax_pos (p : Params) : 1 ≤ p.nMax := Nat.succ_pos _
theorem Params.nMax_le (p : Params) : p.nMax ≤ 65535 := p.nMaxLess1.isLt
theorem Params.kMax_pos (p : Params) : 1 ≤ p.kMax := Nat.succ_pos _
theorem Params.kMax_le (p : Params) : p.kMax ≤ 32767 := p.kMaxLess1.isLt

end Sys2Proof

namespace Sys2Proof.Machine

/-! ## Masks -/

theorem getLsbD_ones (w m p : Nat) : (ones w m).getLsbD p = (decide (p < w) && decide (p < m)) := by
  simp [ones, BitVec.getLsbD_ofNat, Nat.testBit_two_pow_sub_one]

/-- `Within`, bit by bit. -/
theorem within_iff {w : Nat} (len : Nat) (v : BitVec w) :
    Within len v ↔ ∀ p, len ≤ p → v.getLsbD p = false := by
  constructor
  · intro h p hp
    by_cases hw : p < w
    · have hb : (v &&& ~~~ones w len).getLsbD p = false := by rw [h]; exact BitVec.getLsbD_zero
      rw [BitVec.getLsbD_and, BitVec.getLsbD_not, getLsbD_ones] at hb
      simpa [hw, Nat.not_lt.mpr hp] using hb
    · exact BitVec.getLsbD_of_ge _ _ (Nat.le_of_not_lt hw)
  · intro h
    apply BitVec.eq_of_getLsbD_eq
    intro p hp
    by_cases hl : p < len
    · simp [getLsbD_ones, hp, hl]
    · simp [h p (Nat.le_of_not_lt hl)]

theorem outsideLength_eq_false_iff {w : Nat} (len : Nat) (v : BitVec w) :
    outsideLength len v = false ↔ Within len v := by
  simp [outsideLength, Within]

theorem outsideLength_eq_true_iff {w : Nat} (len : Nat) (v : BitVec w) :
    outsideLength len v = true ↔ ∃ p, len ≤ p ∧ v.getLsbD p = true := by
  rw [← Bool.not_eq_false, outsideLength_eq_false_iff, within_iff]
  push Not
  simp

theorem badLength_eq_true_iff (p : Params) (len : Nat) :
    badLength p len = true ↔ len = 0 ∨ p.nMax < len := by
  simp [badLength]

theorem badArgument_eq_true_iff (p : Params) (k : Int) :
    badArgument p k = true ↔ k < 0 ∨ (p.kMax : Int) < k := by
  simp [badArgument]

theorem badArgument_natCast {p : Params} {k : Nat} (h : k ≤ p.kMax) :
    badArgument p (k : Int) = false := by
  rw [← Bool.not_eq_true, badArgument_eq_true_iff]
  omega

/-! ## The feedback tree -/

/-- The XOR of the low `m` bits is the parity of their number. -/
theorem parityBelow_eq_card {w : Nat} (v : BitVec w) (m : Nat) :
    parityBelow v m = decide (((Finset.range m).filter fun t => v.getLsbD t = true).card % 2 = 1) := by
  induction m with
  | zero => rfl
  | succ m ih =>
    rw [parityBelow, ih, Finset.range_add_one, Finset.filter_insert]
    cases h : v.getLsbD m
    · simp
    · rw [if_pos rfl, Finset.card_insert_of_notMem (by simp)]
      rcases Nat.mod_two_eq_zero_or_one
        ((Finset.range m).filter fun t => v.getLsbD t = true).card with h2 | h2 <;>
        simp [Nat.add_mod, h2]

/-- The feedback bit counts the tapped ones (R120). -/
theorem feedback_eq_card {w : Nat} (taps x : BitVec w) :
    feedback taps x = decide
      (((Finset.range w).filter fun t => x.getLsbD t = true ∧ taps.getLsbD t = true).card % 2 = 1) := by
  simp [feedback, parity, parityBelow_eq_card]

@[simp] theorem parityBelow_zero {w : Nat} (m : Nat) : parityBelow (0#w) m = false := by
  induction m with
  | zero => rfl
  | succ m ih => simp [parityBelow, ih]

@[simp] theorem feedback_zero_taps {w : Nat} (x : BitVec w) : feedback 0#w x = false := by
  simp [feedback, parity]

@[simp] theorem feedback_zero_bits {w : Nat} (taps : BitVec w) : feedback taps 0#w = false := by
  simp [feedback, parity]

/-! ## The shift -/

/-- Every bit after the shift (R123). -/
theorem getLsbD_shiftIn {w : Nat} (len : Nat) (x : BitVec w) (b : Bool) (p : Nat) :
    (shiftIn len x b).getLsbD p =
      (decide (p < w) && decide (p < len) && if p = 0 then b else x.getLsbD (p - 1)) := by
  simp only [shiftIn, BitVec.getLsbD_setWidth, BitVec.getLsbD_and, BitVec.getLsbD_concat,
    getLsbD_ones]
  by_cases hw : p < w <;> by_cases hl : p < len <;> simp [hw, hl]
  intro; omega

/-- The shift keeps the register inside its length (R45). -/
theorem within_shiftIn {w : Nat} (len : Nat) (x : BitVec w) (b : Bool) :
    Within len (shiftIn len x b) := by
  rw [within_iff]
  intro p hp
  simp [getLsbD_shiftIn, Nat.not_lt.mpr hp]

/-! ## Collection -/

theorem zextBit_toNat {k : Nat} (hk : 1 ≤ k) (b : Bool) : (zextBit k b).toNat = b.toNat := by
  have : b.toNat < 2 ^ k := by
    have : 2 ^ 1 ≤ 2 ^ k := Nat.pow_le_pow_right (by omega) hk
    have := Bool.toNat_le b
    omega
  simp [zextBit, Nat.mod_eq_of_lt this]

theorem getLsbD_zextBit (k : Nat) (b : Bool) (p : Nat) :
    (zextBit k b).getLsbD p = (decide (p < k) && decide (p = 0) && b) := by
  simp [zextBit, BitVec.getLsbD_setWidth, BitVec.getLsbD_ofBool]
  cases b <;> simp

/-- "multiply by 2 ... add its returned bit" (R140), while the value fits. -/
theorem collectBit_toNat {k : Nat} (acc : BitVec k) (b : Bool) (h : 2 * acc.toNat + 1 < 2 ^ k) :
    (collectBit acc b).toNat = 2 * acc.toNat + b.toNat := by
  have hk : 1 ≤ k := by
    rcases k with _ | k
    · simp at h
    · omega
  have h2 : (acc <<< 1).toNat = 2 * acc.toNat := by
    rw [BitVec.toNat_shiftLeft, Nat.shiftLeft_eq, Nat.mod_eq_of_lt (by omega)]
    omega
  rw [collectBit, BitVec.toNat_or, zextBit_toNat hk, h2]
  cases b
  · simp
  · simp only [Bool.toNat_true]
    have := Nat.shiftLeft_add_eq_or_of_lt (b := 1) (i := 1) (by decide) acc.toNat
    rw [Nat.shiftLeft_eq] at this
    rw [Nat.mul_comm]
    exact this.symm

/-- The register bits after `m` steps. -/
def bitsAfter {w : Nat} (len : Nat) (taps x : BitVec w) (m : Nat) : BitVec w :=
  (nextBits len taps)^[m] x

/-- The bit the `j`-th step returns, counted from 1. -/
def bitOut {w : Nat} (len : Nat) (taps x : BitVec w) (j : Nat) : Bool :=
  feedback taps (bitsAfter len taps x (j - 1))

theorem bitsAfter_succ {w : Nat} (len : Nat) (taps x : BitVec w) (m : Nat) :
    bitsAfter len taps x (m + 1) = nextBits len taps (bitsAfter len taps x m) :=
  Function.iterate_succ_apply' _ _ _

theorem bitsAfter_succ' {w : Nat} (len : Nat) (taps x : BitVec w) (m : Nat) :
    bitsAfter len taps x (m + 1) = bitsAfter len taps (nextBits len taps x) m :=
  Function.iterate_succ_apply _ _ _

theorem bitsAfter_add {w : Nat} (len : Nat) (taps x : BitVec w) (m n : Nat) :
    bitsAfter len taps x (m + n) = bitsAfter len taps (bitsAfter len taps x m) n := by
  rw [Nat.add_comm]
  exact Function.iterate_add_apply _ _ _ _

/-- The loop of R140 with its last iteration split off. -/
theorem collect_succ {w k : Nat} (len : Nat) (taps : BitVec w) (m : Nat) (x : BitVec w)
    (acc : BitVec k) :
    collect len taps (m + 1) x acc =
      (nextBits len taps (collect len taps m x acc).1,
        collectBit (collect len taps m x acc).2 (feedback taps (collect len taps m x acc).1)) := by
  induction m generalizing x acc with
  | zero => rfl
  | succ m ih => rw [collect, ih]; rfl

/-- The loop leaves the register as `m` steps do (R145). -/
theorem collect_fst {w k : Nat} (len : Nat) (taps : BitVec w) (m : Nat) (x : BitVec w)
    (acc : BitVec k) : (collect len taps m x acc).1 = bitsAfter len taps x m := by
  induction m with
  | zero => rfl
  | succ m ih => rw [collect_succ, bitsAfter_succ, ih]

/-- The unbounded value of `m` steps' bits, most significant first, from `v`. -/
def foldFrom (v : Nat) (b : Nat → Bool) : Nat → Nat
  | 0 => v
  | m + 1 => 2 * foldFrom v b m + (b (m + 1)).toNat

theorem foldFrom_lt {v : Nat} (b : Nat → Bool) {n : Nat} (hv : v < 2 ^ n) (m : Nat) :
    foldFrom v b m < 2 ^ (n + m) := by
  induction m with
  | zero => exact hv
  | succ m ih =>
    have : (b (m + 1)).toNat ≤ 1 := Bool.toNat_le _
    rw [foldFrom, ← Nat.add_assoc, Nat.pow_succ]
    omega

theorem foldBits_map_range (b : Nat → Bool) (m : Nat) :
    foldBits ((List.range m).map fun j => b (j + 1)) = foldFrom 0 b m := by
  induction m with
  | zero => rfl
  | succ m ih =>
    rw [List.range_succ, List.map_append, foldBits, List.foldl_append]
    rw [foldBits] at ih
    rw [ih]
    rfl

/-- The loop collects the bits exactly: nothing is lost while they fit ACC (R143). -/
theorem collect_snd_toNat {w k : Nat} (len : Nat) (taps : BitVec w) (x : BitVec w)
    (acc : BitVec k) {n : Nat} (hacc : acc.toNat < 2 ^ n) (m : Nat) (hm : n + m ≤ k) :
    (collect len taps m x acc).2.toNat = foldFrom acc.toNat (bitOut len taps x) m := by
  induction m with
  | zero => rfl
  | succ m ih =>
    have ih := ih (by omega)
    have hlt : foldFrom acc.toNat (bitOut len taps x) m < 2 ^ (n + m) := foldFrom_lt _ hacc m
    have hle : 2 ^ (n + m + 1) ≤ 2 ^ k := Nat.pow_le_pow_right (by omega) (by omega)
    rw [collect_succ, collectBit_toNat, ih, foldFrom, collect_fst, bitOut, Nat.add_sub_cancel]
    rw [ih]
    rw [Nat.pow_succ] at hle
    omega

/-- Steps keep the register inside its length (R45). -/
theorem within_bitsAfter {w len : Nat} {taps x : BitVec w} (h : Within len x) (m : Nat) :
    Within len (bitsAfter len taps x m) := by
  cases m with
  | zero => exact h
  | succ m => rw [bitsAfter_succ]; exact within_shiftIn _ _ _

/-- Every bit of the register after `m` steps: a returned bit, or a bit of the start moved up (R130). -/
theorem getLsbD_bitsAfter {w len : Nat} (taps x : BitVec w) (m p : Nat) (hp : p < len)
    (hw : p < w) :
    (bitsAfter len taps x m).getLsbD p =
      if p < m then bitOut len taps x (m - p) else x.getLsbD (p - m) := by
  induction m generalizing p with
  | zero => simp [bitsAfter]
  | succ m ih =>
    rw [bitsAfter_succ, nextBits, getLsbD_shiftIn]
    rcases p with _ | p
    · simp [hw, hp, bitOut]
    · simp only [hw, hp, decide_true, Bool.true_and, Nat.add_one_ne_zero, if_false,
        Nat.add_sub_cancel]
      rw [ih p (by omega) (by omega)]
      by_cases h : p < m
      · rw [if_pos h, if_pos (by omega)]
        congr 1
        omega
      · rw [if_neg h, if_neg (by omega)]
        congr 1
        omega

/-- Every bit of the unbounded value: the first bit is the highest (R141). -/
theorem foldFrom_testBit (b : Nat → Bool) (k j : Nat) :
    (foldFrom 0 b k).testBit j = (decide (j < k) && b (k - j)) := by
  induction k generalizing j with
  | zero => simp [foldFrom]
  | succ k ih =>
    rw [foldFrom]
    rcases j with _ | j
    · rw [Nat.testBit_zero]
      cases h : b (k + 1) <;> simp
    · have : (2 * foldFrom 0 b k + (b (k + 1)).toNat) / 2 = foldFrom 0 b k := by
        have := Bool.toNat_le (b (k + 1))
        omega
      rw [Nat.testBit_succ, this, ih]
      simp

end Sys2Proof.Machine
end

