-- ==== Sys2Proof/Laws/State.lean ====
section
/-! SUPPORT. Fields of State after each shared update: `finish`, `complete`, `raise`,
`resetRegisters`, `State.advance`. -/

namespace Sys2Proof.Machine

@[simp] theorem State.resetOf_params (p : Params) : (State.resetOf p).params = p := rfl

section finish
variable (c : StatusName) (s : State)

@[simp] theorem finish_params : (finish c s).params = s.params := rfl
@[simp] theorem finish_state : (finish c s).state = s.state := rfl
@[simp] theorem finish_taps : (finish c s).taps = s.taps := rfl
@[simp] theorem finish_len : (finish c s).len = s.len := rfl
@[simp] theorem finish_loaded : (finish c s).loaded = s.loaded := rfl
@[simp] theorem finish_result : (finish c s).result = s.result := rfl
@[simp] theorem finish_status : (finish c s).status = c.code := rfl
@[simp] theorem finish_busy : (finish c s).busy = s.busy := rfl
@[simp] theorem finish_cnt : (finish c s).cnt = s.cnt := rfl
@[simp] theorem finish_acc : (finish c s).acc = s.acc := rfl
@[simp] theorem finish_done : (finish c s).done = true := rfl
@[simp] theorem finish_ports : (finish c s).ports = s.ports := rfl
@[simp] theorem finish_script : (finish c s).script = s.script := rfl

end finish

@[simp] theorem complete_eq_finish (s : State) : complete s = finish .ok s := rfl
@[simp] theorem raise_eq_finish (c : StatusName) (s : State) : raise c s = finish c s := rfl

section resetRegisters
variable (s : State)

@[simp] theorem resetRegisters_params : (resetRegisters s).params = s.params := rfl
@[simp] theorem resetRegisters_state : (resetRegisters s).state = 0 := rfl
@[simp] theorem resetRegisters_taps : (resetRegisters s).taps = 0 := rfl
@[simp] theorem resetRegisters_len : (resetRegisters s).len = 0 := rfl
@[simp] theorem resetRegisters_loaded : (resetRegisters s).loaded = false := rfl
@[simp] theorem resetRegisters_result : (resetRegisters s).result = 0 := rfl
@[simp] theorem resetRegisters_status : (resetRegisters s).status = 0 := rfl
@[simp] theorem resetRegisters_busy : (resetRegisters s).busy = false := rfl
@[simp] theorem resetRegisters_cnt : (resetRegisters s).cnt = 0 := rfl
@[simp] theorem resetRegisters_acc : (resetRegisters s).acc = 0 := rfl
@[simp] theorem resetRegisters_done : (resetRegisters s).done = false := rfl
@[simp] theorem resetRegisters_ports : (resetRegisters s).ports = s.ports := rfl
@[simp] theorem resetRegisters_script : (resetRegisters s).script = s.script := rfl

end resetRegisters

/-! `State.advance` moves the host's ports and nothing else. The registers whose width depends on the
parameters are compared as numbers. -/

section advance
variable (s : State)

/-- All that `advance` can do. -/
theorem State.advance_cases :
    (s.script = [] ∧
      s.advance = { s with ports := { s.ports with rst := false, cmdValid := false } }) ∨
    ∃ p rest, s.script = p :: rest ∧ s.advance = { s with ports := p, script := rest } := by
  unfold State.advance
  split
  · exact .inl ⟨‹_›, rfl⟩
  · exact .inr ⟨_, _, ‹_›, rfl⟩

@[simp] theorem advance_params : s.advance.params = s.params := by
  obtain ⟨_, h⟩ | ⟨_, _, _, h⟩ := s.advance_cases <;> rw [h]
@[simp] theorem advance_len : s.advance.len = s.len := by
  obtain ⟨_, h⟩ | ⟨_, _, _, h⟩ := s.advance_cases <;> rw [h]
@[simp] theorem advance_loaded : s.advance.loaded = s.loaded := by
  obtain ⟨_, h⟩ | ⟨_, _, _, h⟩ := s.advance_cases <;> rw [h]
@[simp] theorem advance_status : s.advance.status = s.status := by
  obtain ⟨_, h⟩ | ⟨_, _, _, h⟩ := s.advance_cases <;> rw [h]
@[simp] theorem advance_busy : s.advance.busy = s.busy := by
  obtain ⟨_, h⟩ | ⟨_, _, _, h⟩ := s.advance_cases <;> rw [h]
@[simp] theorem advance_cnt : s.advance.cnt = s.cnt := by
  obtain ⟨_, h⟩ | ⟨_, _, _, h⟩ := s.advance_cases <;> rw [h]
@[simp] theorem advance_done : s.advance.done = s.done := by
  obtain ⟨_, h⟩ | ⟨_, _, _, h⟩ := s.advance_cases <;> rw [h]
@[simp] theorem advance_state_toNat : s.advance.state.toNat = s.state.toNat := by
  obtain ⟨_, h⟩ | ⟨_, _, _, h⟩ := s.advance_cases <;> rw [h]
@[simp] theorem advance_taps_toNat : s.advance.taps.toNat = s.taps.toNat := by
  obtain ⟨_, h⟩ | ⟨_, _, _, h⟩ := s.advance_cases <;> rw [h]
@[simp] theorem advance_result_toNat : s.advance.result.toNat = s.result.toNat := by
  obtain ⟨_, h⟩ | ⟨_, _, _, h⟩ := s.advance_cases <;> rw [h]
@[simp] theorem advance_acc_toNat : s.advance.acc.toNat = s.acc.toNat := by
  obtain ⟨_, h⟩ | ⟨_, _, _, h⟩ := s.advance_cases <;> rw [h]

end advance

end Sys2Proof.Machine
end

