-- ==== Sys2Proof/Laws/Exec.lean ====
section
/-! SUPPORT. What each command does, once: the cases of LOAD, STEP and RAND, runs of STEPs, and the
arms of `exec`. -/

namespace Sys2Proof.Machine

/-! ## LOAD -/

theorem exec_load (n : Nat) (s : State) : exec (.load n) s = .next (afterLoad n s) := rfl

/-- All that a LOAD can do (R104). -/
theorem afterLoad_cases (n : Nat) (s : State) :
    (badLength s.params n = true ∧ afterLoad n s = finish .invalidLength s) ∨
    (badLength s.params n = false ∧ outsideLength n s.ports.fill = true ∧
      afterLoad n s = finish .invalidState s) ∨
    (badLength s.params n = false ∧ outsideLength n s.ports.fill = false ∧
      outsideLength n s.ports.taps = true ∧ afterLoad n s = finish .invalidTap s) ∨
    (badLength s.params n = false ∧ outsideLength n s.ports.fill = false ∧
      outsideLength n s.ports.taps = false ∧ afterLoad n s = loadRegister n s) := by
  unfold afterLoad fillOperand tapsOperand
  cases h1 : badLength s.params n <;> cases h2 : outsideLength n s.ports.fill <;>
    cases h3 : outsideLength n s.ports.taps <;> simp

/-! ## STEP -/

theorem exec_step (s : State) : exec .step s = .next (afterStep s) := rfl

theorem afterStep_loaded {s : State} (h : s.loaded = true) : afterStep s = stepRegister s :=
  if_pos h

theorem afterStep_unloaded {s : State} (h : s.loaded = false) :
    afterStep s = finish .notLoaded s := by
  simp [afterStep, h]

theorem exec_step_loaded {s : State} (h : s.loaded = true) :
    exec .step s = .next (stepRegister s) := by
  rw [exec_step, afterStep_loaded h]

@[simp] theorem stepRegister_loaded (s : State) : (stepRegister s).loaded = s.loaded := rfl
@[simp] theorem stepRegister_params (s : State) : (stepRegister s).params = s.params := rfl
@[simp] theorem stepRegister_status (s : State) : (stepRegister s).status = 0 := rfl

/-- `m` STEPs one after the other. -/
def stepsRegister (m : Nat) (s : State) : State := stepRegister^[m] s

theorem stepsRegister_succ (m : Nat) (s : State) :
    stepsRegister (m + 1) s = stepRegister (stepsRegister m s) :=
  Function.iterate_succ_apply' _ _ _

theorem stepsRegister_succ' (m : Nat) (s : State) :
    stepsRegister (m + 1) s = stepsRegister m (stepRegister s) :=
  Function.iterate_succ_apply _ _ _

/-- A run of STEPs on a loaded register always ends in a next state (R126). -/
theorem runSteps_loaded (m : Nat) {s : State} (h : s.loaded = true) :
    runSteps m s = .next (stepsRegister m s) := by
  induction m generalizing s with
  | zero => rfl
  | succ m ih =>
    rw [runSteps, List.replicate_succ, runCommands, exec_step_loaded h, stepsRegister_succ']
    exact ih h

/-- What `m` STEPs leave of the register: only STATE has moved. -/
theorem stepsRegister_eq (m : Nat) (s : State) :
    ∃ r st d, stepsRegister m s =
      { s with
        state := bitsAfter s.len.toNat s.taps s.state m, result := r, status := st, done := d } := by
  induction m with
  | zero => exact ⟨s.result, s.status, s.done, rfl⟩
  | succ m ih =>
    obtain ⟨r, st, d, h⟩ := ih
    rw [stepsRegister_succ, h]
    exact ⟨_, _, _, by rw [bitsAfter_succ]; rfl⟩

/-- What the last of `m + 1` STEPs returns. -/
theorem stepsRegister_succ_eq (m : Nat) (s : State) :
    stepsRegister (m + 1) s =
      { s with
        state := bitsAfter s.len.toNat s.taps s.state (m + 1),
        result := zextBit s.params.kMax (bitOut s.len.toNat s.taps s.state (m + 1)),
        status := 0, done := true } := by
  obtain ⟨r, st, d, h⟩ := stepsRegister_eq m s
  rw [stepsRegister_succ, h, bitsAfter_succ]
  rfl

/-- The bits a run of STEPs returns are the outputs of the feedback tree. -/
theorem returnedBits_loaded (m : Nat) {s : State} (h : s.loaded = true) :
    returnedBits m s =
      (List.range m).map fun j => bitOut s.len.toNat s.taps s.state (j + 1) := by
  induction m generalizing s with
  | zero => rfl
  | succ m ih =>
    rw [returnedBits, exec_step_loaded h]
    simp only
    rw [ih (s := stepRegister s) h, List.range_succ_eq_map, List.map_cons, List.map_map]
    congr 1
    show (zextBit s.params.kMax s.fb).getLsbD 0 = _
    rw [getLsbD_zextBit]
    simp only [show 0 < s.params.kMax from s.params.kMax_pos, decide_true, Bool.true_and]
    rfl

theorem returnedBit_loaded {j : Nat} (hj : 1 ≤ j) {s : State} (h : s.loaded = true) :
    returnedBit j s = bitOut s.len.toNat s.taps s.state j := by
  rw [returnedBit, returnedBits_loaded j h]
  obtain ⟨k, rfl⟩ : ∃ k, j = k + 1 := ⟨j - 1, by omega⟩
  simp

/-! ## RAND -/

theorem exec_rand (k : Int) (s : State) : exec (.rand k) s = .next (afterRand k s) := rfl

/-- All that the checks of RAND can do (R144). -/
theorem randChecked_cases (k : Int) (run : Nat → State → State) (s : State) :
    (s.loaded = false ∧ randChecked k run s = finish .notLoaded s) ∨
    (s.loaded = true ∧ badArgument s.params k = true ∧
      randChecked k run s = finish .invalidArgument s) ∨
    (s.loaded = true ∧ badArgument s.params k = false ∧ randChecked k run s = run k.toNat s) := by
  unfold randChecked
  cases s.loaded <;> cases badArgument s.params k <;> simp

theorem randChecked_pass {s : State} {k : Nat} (run : Nat → State → State)
    (h : s.loaded = true) (hk : k ≤ s.params.kMax) : randChecked k run s = run k s := by
  simp [randChecked, h, badArgument_natCast hk]

theorem exec_rand_loaded {s : State} {k : Nat} (h : s.loaded = true) (hk : k ≤ s.params.kMax) :
    exec (.rand k) s = .next (randRegister k s) := by
  rw [exec_rand, afterRand, randChecked_pass _ h hk]

/-- RAND's STATE is that of its steps. -/
theorem randRegister_state (k : Nat) (s : State) :
    (randRegister k s).state = bitsAfter s.len.toNat s.taps s.state k :=
  collect_fst _ _ _ _ _

/-- RAND's RESULT is the exact value of its bits (R143). -/
theorem randRegister_result_toNat {k : Nat} {s : State} (hk : k ≤ s.params.kMax) :
    (randRegister k s).result.toNat =
      foldFrom 0 (bitOut s.len.toNat s.taps s.state) k := by
  have := collect_snd_toNat s.len.toNat s.taps s.state (0 : BitVec s.params.kMax) (n := 0)
    (by simp) k (by omega)
  exact this

/-! ## All commands -/

/-- Every command of the table answers a next state. -/
theorem exec_next (i : Instr) (s : State) : ∃ t, exec i s = .next t := by
  cases i <;> exact ⟨_, rfl⟩

/-- All that a command can do: end with an error code and nothing else, or one of the three
successful effects. -/
theorem exec_cases {i : Instr} {s t : State} (h : exec i s = .next t) :
    (∃ c, c ≠ .ok ∧ c ≠ .illegalCommand ∧ t = finish c s) ∨
    (∃ n, i = .load n ∧ badLength s.params n = false ∧ outsideLength n s.ports.fill = false ∧
      outsideLength n s.ports.taps = false ∧ t = loadRegister n s) ∨
    (i = .step ∧ s.loaded = true ∧ t = stepRegister s) ∨
    ∃ k : Int, i = .rand k ∧ s.loaded = true ∧ badArgument s.params k = false ∧
      t = randRegister k.toNat s := by
  cases i with
  | load n =>
    rw [exec_load, Host.Outcome.next.injEq] at h
    obtain ⟨-, e⟩ | ⟨-, -, e⟩ | ⟨-, -, -, e⟩ | ⟨h1, h2, h3, e⟩ := afterLoad_cases n s
    · exact .inl ⟨_, by decide, by decide, h ▸ e⟩
    · exact .inl ⟨_, by decide, by decide, h ▸ e⟩
    · exact .inl ⟨_, by decide, by decide, h ▸ e⟩
    · exact .inr (.inl ⟨n, rfl, h1, h2, h3, h ▸ e⟩)
  | step =>
    rw [exec_step, Host.Outcome.next.injEq] at h
    cases hl : s.loaded
    · exact .inl ⟨_, by decide, by decide, h ▸ afterStep_unloaded hl⟩
    · exact .inr (.inr (.inl ⟨rfl, rfl, h ▸ afterStep_loaded hl⟩))
  | rand k =>
    rw [exec_rand, Host.Outcome.next.injEq, afterRand] at h
    obtain ⟨-, e⟩ | ⟨-, -, e⟩ | ⟨h1, h2, e⟩ := randChecked_cases k randRegister s
    · exact .inl ⟨_, by decide, by decide, h ▸ e⟩
    · exact .inl ⟨_, by decide, by decide, h ▸ e⟩
    · exact .inr (.inr (.inr ⟨k, rfl, h1, h2, h ▸ e⟩))

end Sys2Proof.Machine
end

