-- ==== Sys2Proof/Laws/PerInstr.lean ====
section
/-! SUPPORT. Facts proved for each command in turn. -/

namespace Sys2Proof.Laws

/-- The OP value of a command (R71). -/
def opOf : Instr → BitVec 2
  | .load _ => 1
  | .step => 2
  | .rand _ => 3

/-- The encoded word carries the command's OP in bits 1:0 and 0 in RSV, bits 15:2 (R70, R71). -/
def EncodedFields.Statement (i : Instr) : Prop :=
  fieldOp (encode i) = opOf i ∧ fieldRsv (encode i) = 0

/-- OP and RSV are the two parts of the low half. -/
theorem fieldOp_append (a b : Half) : fieldOp (a ++ b) = b.extractLsb' 0 2 := by
  apply BitVec.eq_of_getLsbD_eq
  intro i hi
  rw [fieldOp, BitVec.getLsbD_extractLsb', BitVec.getLsbD_extractLsb', BitVec.getLsbD_append]
  simp only [Nat.zero_add, show i < 16 by omega, if_true]

theorem fieldRsv_append (a b : Half) : fieldRsv (a ++ b) = b.extractLsb' 2 14 := by
  apply BitVec.eq_of_getLsbD_eq
  intro i hi
  rw [fieldRsv, BitVec.getLsbD_extractLsb', BitVec.getLsbD_extractLsb', BitVec.getLsbD_append]
  simp only [show 2 + i < 16 by omega, if_true]

theorem EncodedFields.load (len : Nat) : EncodedFields.Statement (.load len) :=
  ⟨(fieldOp_append _ _).trans rfl, (fieldRsv_append _ _).trans rfl⟩

theorem EncodedFields.step : EncodedFields.Statement .step := ⟨by decide, by decide⟩

theorem EncodedFields.rand (k : Int) : EncodedFields.Statement (.rand k) :=
  ⟨(fieldOp_append _ _).trans rfl, (fieldRsv_append _ _).trans rfl⟩

end Sys2Proof.Laws
end

