-- ==== Sys2Proof/Laws/Source.lean ====
section
/-! SUPPORT. What the source's `rand` loop does. -/

namespace Sys2Proof.Machine

/-- The loop with its last iteration split off. -/
theorem randFrom_succ (m : Nat) (r : Register) (acc : Nat) :
    Register.randFrom (m + 1) r acc =
      (2 * (Register.randFrom m r acc).1 + (Register.randFrom m r acc).2.newBit.toNat,
        (Register.randFrom m r acc).2.shift) := by
  induction m generalizing r acc with
  | zero => rfl
  | succ m ih => rw [Register.randFrom, ih]; rfl

/-- The loop in two parts. -/
theorem randFrom_add (a b : Nat) (r : Register) (acc : Nat) :
    Register.randFrom (a + b) r acc =
      Register.randFrom b (Register.randFrom a r acc).2 (Register.randFrom a r acc).1 := by
  induction a generalizing r acc with
  | zero => rw [Nat.zero_add]; rfl
  | succ a ih => rw [show a + 1 + b = (a + b) + 1 by omega, Register.randFrom, ih]; rfl

end Sys2Proof.Machine
end

