-- ==== Sys2Proof/Laws/Step.lean ====
section
/-! SUPPORT. What one edge does, once: the cases of `edgeRegisters`, for the machine's step and for the
reference engine, and what the engine's operations do. -/

namespace Sys2Proof.Machine

/-! ## The engine -/

theorem engineSettle_cases (s : State) :
    (s.cnt = 0 ∧ engineSettle s = complete { s with result := s.acc, busy := false }) ∨
    (s.cnt ≠ 0 ∧ engineSettle s = { s with busy := true, done := false }) := by
  unfold engineSettle
  split
  · exact .inl ⟨‹_›, rfl⟩
  · exact .inr ⟨‹_›, rfl⟩

theorem engineStart_zero (s : State) : engineStart 0 s = randRegister 0 s := rfl

theorem engineStart_pos {k : Nat} (h : 1 ≤ k) (s : State) :
    engineStart k s = engineSettle (engineStep s 0 (BitVec.ofNat 16 (k - 1))) := by
  rw [engineStart, if_neg (by omega)]

theorem engineAccept_rand (k : Int) (s : State) :
    engineAccept (.rand k) s = .next (randChecked k engineStart s) := rfl

/-- The engine takes every command but RAND as the machine does. -/
theorem engineAccept_eq_exec {i : Instr} (h : ∀ k, i ≠ .rand k) (s : State) :
    engineAccept i s = exec i s := by
  cases i with
  | load n => rfl
  | step => rfl
  | rand k => exact absurd rfl (h k)

theorem engineAccept_next (i : Instr) (s : State) : ∃ t, engineAccept i s = .next t := by
  cases i <;> exact ⟨_, rfl⟩

/-! ## One edge -/

/-- An edge is its registers' part followed by the host's next port values. -/
theorem edge_of_registers {run : Instr → State → Host.Outcome State Fault Refusal} {s t : State}
    (h : edgeRegisters run s = .next t) : edge run s = .next t.advance := by
  rw [edge, h, mapNext]

theorem step_eq_edge (s : State) : step s = edge exec s := rfl

theorem clockEdge_eq_edge (s : State) : clockEdge s = edge engineAccept s := rfl

theorem accepts_iff (s : State) :
    s.accepts = true ↔ s.ports.rst = false ∧ s.busy = false ∧ s.ports.cmdValid = true := by
  unfold State.accepts State.cmdReady
  cases s.ports.rst <;> cases s.busy <;> simp

section cases
variable {run : Instr → State → Host.Outcome State Fault Refusal}

theorem edgeRegisters_rst {s : State} (h : s.ports.rst = true) :
    edgeRegisters run s = .next (resetRegisters s) := by
  simp [edgeRegisters, h]

theorem edgeRegisters_busy {s : State} (h : s.ports.rst = false) (hb : s.busy = true) :
    edgeRegisters run s = .next (engineContinue s) := by
  simp [edgeRegisters, h, hb]

theorem edgeRegisters_idle {s : State} (h : s.ports.rst = false) (hb : s.busy = false)
    (hv : s.ports.cmdValid = false) :
    edgeRegisters run s = .next { s with done := false } := by
  simp [edgeRegisters, h, hb, hv]

theorem edgeRegisters_command {s : State} {i : Instr} (ha : s.accepts = true)
    (hd : decode s.ports.cmd = some i) : edgeRegisters run s = run i s := by
  obtain ⟨h, hb, hv⟩ := (accepts_iff s).mp ha
  simp [edgeRegisters, h, hb, hv, acceptWord, hd]

theorem edgeRegisters_illegal {s : State} (ha : s.accepts = true)
    (hd : decode s.ports.cmd = none) :
    edgeRegisters run s = .next (finish .illegalCommand s) := by
  obtain ⟨h, hb, hv⟩ := (accepts_iff s).mp ha
  simp [edgeRegisters, h, hb, hv, acceptWord, hd]

/-- All that an edge can do to the registers. -/
theorem edgeRegisters_cases (run : Instr → State → Host.Outcome State Fault Refusal) (s : State) :
    (s.ports.rst = true ∧ edgeRegisters run s = .next (resetRegisters s)) ∨
    (s.ports.rst = false ∧ s.busy = true ∧ edgeRegisters run s = .next (engineContinue s)) ∨
    (s.ports.rst = false ∧ s.busy = false ∧ s.ports.cmdValid = false ∧
      edgeRegisters run s = .next { s with done := false }) ∨
    (s.accepts = true ∧ decode s.ports.cmd = none ∧
      edgeRegisters run s = .next (finish .illegalCommand s)) ∨
    (∃ i, s.accepts = true ∧ decode s.ports.cmd = some i ∧ edgeRegisters run s = run i s) := by
  by_cases h : s.ports.rst = true
  · exact .inl ⟨h, edgeRegisters_rst h⟩
  rw [Bool.not_eq_true] at h
  by_cases hb : s.busy = true
  · exact .inr (.inl ⟨h, hb, edgeRegisters_busy h hb⟩)
  rw [Bool.not_eq_true] at hb
  by_cases hv : s.ports.cmdValid = true
  · have ha := (accepts_iff s).mpr ⟨h, hb, hv⟩
    cases hd : decode s.ports.cmd with
    | none => exact .inr (.inr (.inr (.inl ⟨ha, rfl, edgeRegisters_illegal ha hd⟩)))
    | some i => exact .inr (.inr (.inr (.inr ⟨i, ha, rfl, edgeRegisters_command ha hd⟩)))
  · rw [Bool.not_eq_true] at hv
    exact .inr (.inr (.inl ⟨h, hb, hv, edgeRegisters_idle h hb hv⟩))

end cases

/-- Every step of the machine answers a next state. -/
theorem step_next (s : State) : ∃ t, edgeRegisters exec s = .next t ∧ step s = .next t.advance := by
  have : ∃ t, edgeRegisters exec s = .next t := by
    obtain ⟨-, h⟩ | ⟨-, -, h⟩ | ⟨-, -, -, h⟩ | ⟨-, -, h⟩ | ⟨i, -, -, h⟩ := edgeRegisters_cases exec s
    · exact ⟨_, h⟩
    · exact ⟨_, h⟩
    · exact ⟨_, h⟩
    · exact ⟨_, h⟩
    · exact h ▸ exec_next i s
  obtain ⟨t, h⟩ := this
  exact ⟨t, h, edge_of_registers h⟩

/-- Every edge of the reference engine answers a next state. -/
theorem clockEdge_next (s : State) :
    ∃ t, edgeRegisters engineAccept s = .next t ∧ clockEdge s = .next t.advance := by
  have : ∃ t, edgeRegisters engineAccept s = .next t := by
    obtain ⟨-, h⟩ | ⟨-, -, h⟩ | ⟨-, -, -, h⟩ | ⟨-, -, h⟩ | ⟨i, -, -, h⟩ :=
      edgeRegisters_cases engineAccept s
    · exact ⟨_, h⟩
    · exact ⟨_, h⟩
    · exact ⟨_, h⟩
    · exact ⟨_, h⟩
    · exact h ▸ engineAccept_next i s
  obtain ⟨t, h⟩ := this
  exact ⟨t, h, edge_of_registers h⟩

/-! ## The host's ports -/

/-- Moving the ports changes no register. -/
theorem advance_registers (s : State) : s.advance.registers = s.registers := by
  obtain ⟨_, h⟩ | ⟨_, _, _, h⟩ := s.advance_cases <;> rw [h] <;> rfl

/-- `rst` stays low at the next step when the script keeps it low. -/
theorem noResetFor_advance {s : State} {n : Nat} (h : s.noResetFor (n + 1)) :
    s.advance.noResetFor n := by
  obtain ⟨hs, e⟩ | ⟨p, rest, hs, e⟩ := s.advance_cases <;> rw [e]
  · exact ⟨rfl, by simp [hs]⟩
  · have h2 := h.2
    rw [hs, List.take_succ_cons] at h2
    exact ⟨h2 p (by simp), fun q hq => h2 q (by simp [hq])⟩

end Sys2Proof.Machine
end

