-- ==== Sys2Proof/Tests/Slice0.lean ====
section
/-! SUPPORT. Small tests and the witnesses of the statements' hypotheses. Expected values come from
spec/95_test_vectors.md (the vector is named at each) or are computed by hand from the rule named. -/

namespace Sys2Proof.Tests

open Sys2Proof Sys2Proof.Machine

/-! ## Well-formedness: an ill-formed term for each check (R79) -/

theorem test_len_above_16_bits_is_ill_formed : (Instr.load 65536).wellFormed = false := by decide
theorem test_k_below_16_bits_is_ill_formed : (Instr.rand (-32769)).wellFormed = false := by decide
theorem test_k_above_16_bits_is_ill_formed : (Instr.rand 32768).wellFormed = false := by decide
theorem test_refused_values_are_well_formed :
    (Instr.load 0).wellFormed = true ∧ (Instr.rand (-1)).wellFormed = true := by decide

/-! ## Decoding, words written out bit by bit from R70 to R73 -/

/-- IMM16 = 0000000000001011, RSV = 0, OP = 01. -/
theorem test_decode_load : decode 0b00000000000010110000000000000001#32 = some (.load 11) := by
  decide

/-- IMM16 = 0, RSV = 0, OP = 10. -/
theorem test_decode_step : decode 0b00000000000000000000000000000010#32 = some .step := by decide

/-- IMM16 = 1111111111111111, RSV = 0, OP = 11: K is read as two's complement. -/
theorem test_decode_rand : decode 0b11111111111111110000000000000011#32 = some (.rand (-1)) := by
  decide

/-- V-D2, V-D3, V-D4, V-R17: RSV not 0, and STEP with IMM16 not 0. -/
theorem test_decode_reserved :
    decode 0x00000005#32 = none ∧ decode 0x00000006#32 = none ∧ decode 0x00010002#32 = none ∧
      decode 0x00000007#32 = none := by decide

theorem test_table_words : decodeTableWord 32 1 = some (.load 0) ∧
    decodeTableWord 32 2 = some .step ∧ decodeTableWord 32 3 = some (.rand 0) ∧
    decodeTableWord 8 2 = some .step := by decide

/-! ## States for the tests, at the reference configuration -/

/-- U0 (V-L1). -/
def unloaded : State := State.resetOf Params.reference

/-- A loaded register of the reference configuration. -/
def loadedWith (len : Half) (taps state : BitVec 16) : State :=
  { unloaded with len := len, taps := taps, state := state, loaded := true }

/-- The source's scenario (E2). -/
def seeded : State := loadedWith 11 0x100 0x342

/-- The maximal-period register of V-S13, whose top tap is set. -/
def topTapped : State := loadedWith 4 0x9 0x1

/-- The state with a LOAD's operands on the ports. -/
def withOperands (s : State) (fill taps : BitVec s.params.nMax) : State :=
  { s with ports := { s.ports with fill := fill, taps := taps } }

/-- The registers a vector of the spec lists: LOADED, LEN, TAPS, STATE, RESULT, STATUS. -/
def view (o : Host.Outcome State Fault Refusal) : Option (Bool × Nat × Nat × Nat × Nat × Nat) :=
  match o with
  | .next s => some (s.loaded, s.len.toNat, s.taps.toNat, s.state.toNat, s.result.toNat,
      s.status.toNat)
  | .fault _ => none
  | .refused _ => none

/-! ## LOAD -/

/-- V-L1. -/
theorem test_load_succeeds :
    view (exec (.load 11) (withOperands unloaded 0x342#16 0x100#16)) =
      some (true, 11, 0x100, 0x342, 0, 0) := by decide

/-- V-L6: with both operands bad, INVALID_STATE is the code reported. -/
theorem test_load_reports_the_fill_first :
    view (exec (.load 3) (withOperands unloaded 0x8#16 0x8#16)) =
      some (false, 0, 0, 0, 0, 1) := by decide

/-! ## STEP -/

/-- V-S1, the source's first step. -/
theorem test_step_of_the_source_seed : view (exec .step seeded) =
    some (true, 11, 0x100, 0x685, 1, 0) := by decide

/-- V-S5: LEN = N_MAX, the departing bit feeds the tree before it leaves. -/
theorem test_step_full_width : view (exec .step (loadedWith 16 0x8000 0x8000)) =
    some (true, 16, 0x8000, 0x0001, 1, 0) := by decide

/-! ## RAND -/

/-- V-R3, the source's rand(8). -/
theorem test_rand_of_the_source : view (exec (.rand 8) (loadedWith 11 0x100 0x215)) =
    some (true, 11, 0x100, 0x50A, 0x0A, 0) := by decide

/-- V-R10: NOT_LOADED comes before INVALID_ARGUMENT. -/
theorem test_rand_unloaded : view (exec (.rand (-1)) unloaded) = some (false, 0, 0, 0, 0, 5) := by
  decide

/-! ## One step of the machine -/

/-- Each row of the table runs as the first command after reset, whatever N_MAX and K_MAX are. -/
theorem test_rows_run_after_reset :
    (∃ t, step (State.reset.withFetchWord 32 1) = .next t) ∧
    (∃ t, step (State.reset.withFetchWord 32 2) = .next t) ∧
    ∃ t, step (State.reset.withFetchWord 32 3) = .next t :=
  ⟨⟨_, rfl⟩, ⟨_, rfl⟩, ⟨_, rfl⟩⟩

/-- V-D1 on a loaded register: nothing but STATUS. -/
theorem test_zero_word_is_illegal : view (step (seeded.withFetchWord 32 0)) =
    some (true, 11, 0x100, 0x342, 0, 6) := by decide

/-- The registers of the engine, and what the host sees: BUSY, CNT, `done`, `cmd_ready`, `status`. -/
def engineView (o : Host.Outcome State Fault Refusal) :
    Option (Bool × Nat × Bool × Bool × Option (BitVec 3)) :=
  match o with
  | .next s => some (s.busy, s.cnt.toNat, s.donePort, s.cmdReady, s.statusPort)
  | .fault _ => none
  | .refused _ => none

/-- V-H2, the acceptance edge E0 of RAND 3: BUSY, two steps left, no sample of `status` defined. -/
theorem test_engine_starts : engineView (clockEdge (seeded.offer 0x00030003#32)) =
    some (true, 2, false, false, none) := by decide

/-- The engine in the middle of a RAND: three steps left. -/
def running : State := { seeded with busy := true, cnt := 3 }

/-- The state with `rst` asserted. -/
def resetting (s : State) : State := { s with ports := { s.ports with rst := true } }

/-- V-H3: `rst` at an edge while BUSY abandons the RAND, with no `done`. -/
theorem test_reset_abandons_the_rand :
    view (clockEdge (resetting running)) = some (false, 0, 0, 0, 0, 0) ∧
      engineView (clockEdge (resetting running)) = some (false, 0, false, true, some 0) :=
  ⟨by decide, by decide⟩

/-! ## The assembler -/

/-- V-A3, from its text: three taps 2 leave one. -/
theorem test_assemble_new :
    assembleText Params.reference
      ['N', 'E', 'W', ' ', '[', '1', ',', '0', ',', '1', ']', ',', ' ', '[', '2', ',', '2', ',',
        '2', ']'] =
      .ok [⟨false, true, 0x00030001#32, 0x5#16, 0x4#16⟩] := by decide

/-- V-A4, V-A5. -/
theorem test_assemble_errors :
    assemble Params.reference (.new [0, 2, 1] []) = .error .invalidState ∧
      assemble Params.reference (.new [1, 0, 1] [-1]) = .error .invalidTap := by decide

/-- V-A7. -/
theorem test_randw_plan : randWPlan 16 20 = [16, 4] := by decide

/-- R79's example `LOAD 11, 0x342, 0x100`. -/
theorem test_assemble_load :
    assembleText Params.reference
      ['L', 'O', 'A', 'D', ' ', '1', '1', ',', ' ', '0', 'x', '3', '4', '2', ',', ' ', '0', 'x',
        '1', '0', '0'] =
      .ok [⟨false, true, 0x000B0001#32, 0x342#16, 0x100#16⟩] := by decide

/-! ## Witnesses

One theorem for each statement with hypotheses: a state and operands that meet all of them. -/

/-- The source's register of E2. -/
def seedRegister : Register :=
  ⟨[false, true, true, false, true, false, false, false, false, true, false], [8]⟩

theorem seeded_loadedInv : seeded.LoadedInv := by decide

theorem topTapped_loadedInv : topTapped.LoadedInv := by decide

theorem seeded_inv : seeded.Inv := ⟨by decide, by decide, by decide, by decide, by decide⟩

/-- R45 to R46 in a state with a running engine. -/
theorem running_inv : running.Inv := ⟨by decide, by decide, by decide, by decide, by decide⟩

theorem seeded_represents : seeded.Represents seedRegister where
  loaded := rfl
  length := rfl
  bits := by decide
  taps := fun t => by
    by_cases h : t < 16
    · revert t
      decide
    · rw [BitVec.getLsbD_of_ge seeded.taps t (Nat.le_of_not_lt h)]
      have : t ≠ 8 := by omega
      simp [seedRegister, this.symm]

theorem witness_StepRunsTheDecodedCommand :
    (seeded.offer 0x00000002#32).accepts = true ∧
      decode (seeded.offer 0x00000002#32).ports.cmd = some .step := by decide

theorem witness_AdvanceMovesOnlyTheHostsPorts :
    unloaded.script = [] ∧
      ({ unloaded with script := [Ports.quiet 16] } : State).script = Ports.quiet 16 :: [] :=
  ⟨rfl, rfl⟩

theorem witness_IllegalWordRaisesIllegalCommand :
    (unloaded.offer 0#32).accepts = true ∧ decode (unloaded.offer 0#32).ports.cmd = none := by
  decide

theorem witness_NothingIsSampledWhileBusy :
    running.busy = true ∧ running.ports.rst = false ∧ (Ports.quiet 16).rst = false := by decide

theorem witness_IdleBlockHoldsItsState :
    seeded.ports.rst = false ∧ seeded.busy = false ∧ seeded.ports.cmdValid = false := by decide

/-- A list of two commands, and the empty list. -/
theorem witness_CommandsRunInAcceptanceOrder :
    seeded.busy = false ∧ (Instr.step.WF ∧ ∀ n, Instr.step ≠ .load n) ∧
      ((Instr.rand 8).WF ∧ ∀ n, Instr.rand 8 ≠ .load n) := by
  refine ⟨rfl, ⟨rfl, ?_⟩, rfl, ?_⟩ <;> simp

theorem witness_ResetStateIsAsSpecified : ∃ p : Params, unloaded = State.resetOf p := ⟨_, rfl⟩

theorem witness_ResetEdgeClearsEveryRegister :
    (resetting running).ports.rst = true := by
  decide

/-- Both kinds of edge, and both ends of the countdown. -/
theorem witness_OnlyResetStopsARunningRand :
    running.busy = true ∧ running.ports.rst = false ∧
      ({ running with cnt := 1 } : State).busy = true ∧
      (resetting running).busy = true := by
  decide

theorem witness_StepKeepsTheInvariant : seeded.Inv ∧ running.Inv := ⟨seeded_inv, running_inv⟩

theorem witness_ClockEdgeKeepsTheInvariant : seeded.Inv ∧ running.Inv :=
  ⟨seeded_inv, running_inv⟩

/-- The lengths 0 and N_MAX + 1 (V-L2, V-L4). -/
theorem witness_LoadRefusesABadLength :
    (0 = 0 ∨ unloaded.params.nMax < 0) ∧ (17 = 0 ∨ unloaded.params.nMax < 17) := by decide

/-- V-L3: the fill bit at position LEN_in itself. -/
theorem witness_LoadRefusesAFillOutsideItsLength :
    1 ≤ 3 ∧ 3 ≤ unloaded.params.nMax ∧
      3 ≤ 3 ∧ (withOperands unloaded 0x8#16 0#16).ports.fill.getLsbD 3 = true := by decide

/-- V-L7: a good fill and a tap at position LEN_in. -/
theorem witness_LoadRefusesATapOutsideItsLength :
    1 ≤ 3 ∧ 3 ≤ unloaded.params.nMax ∧
      (∀ p, 3 ≤ p → (withOperands unloaded 0x5#16 0x8#16).ports.fill.getLsbD p = false) ∧
      (withOperands unloaded 0x5#16 0x8#16).ports.taps.getLsbD 3 = true :=
  ⟨by decide, by decide, (within_iff 3 0x5#16).mp (by decide), by decide⟩

/-- The smallest and the largest register (V-L9, V-L8), and the empty taps and fill of V-L10. -/
theorem witness_LoadConstructsTheRegister :
    (1 ≤ 1 ∧ 1 ≤ unloaded.params.nMax ∧
      (∀ p, 1 ≤ p → (withOperands unloaded 0x1#16 0x1#16).ports.fill.getLsbD p = false) ∧
      ∀ p, 1 ≤ p → (withOperands unloaded 0x1#16 0x1#16).ports.taps.getLsbD p = false) ∧
    (1 ≤ 16 ∧ 16 ≤ unloaded.params.nMax ∧
      (∀ p, 16 ≤ p → (withOperands unloaded 0xFFFF#16 0#16).ports.fill.getLsbD p = false) ∧
      ∀ p, 16 ≤ p → (withOperands unloaded 0xFFFF#16 0#16).ports.taps.getLsbD p = false) :=
  ⟨⟨by decide, by decide, (within_iff 1 0x1#16).mp (by decide),
      (within_iff 1 0x1#16).mp (by decide)⟩,
    by decide, by decide, (within_iff 16 0xFFFF#16).mp (by decide),
    (within_iff 16 0#16).mp (by decide)⟩

/-- A STEP accepted: no LOAD is. -/
theorem witness_OnlyALoadOrResetWritesTheConfiguration :
    ∃ t, (step (seeded.offer 2#32) = .next t ∨ clockEdge (seeded.offer 2#32) = .next t) ∧
      (seeded.offer 2#32).ports.rst = false ∧
      ∀ n, (seeded.offer 2#32).accepts = true →
        decode (seeded.offer 2#32).ports.cmd = some (.load n) → t.status ≠ 0 :=
  ⟨_, .inl rfl, rfl, fun n _ h =>
    absurd ((show decode 2#32 = some .step by decide).symm.trans h) (by simp)⟩

/-- The smallest and the largest register of the reference configuration too (V-S2, V-S5). -/
theorem witness_StepShiftsInTheFeedbackBit :
    (seeded.loaded = true ∧ seeded.LoadedInv) ∧
    ((loadedWith 1 0x1 0x1).loaded = true ∧ (loadedWith 1 0x1 0x1).LoadedInv) ∧
    ((loadedWith 16 0x8000 0x8000).loaded = true ∧ (loadedWith 16 0x8000 0x8000).LoadedInv) := by
  decide

theorem witness_StepReturnsTheNewBit : seeded.loaded = true ∧ seeded.LoadedInv := by decide

theorem witness_UnloadedStepAndRandAreRefused : unloaded.loaded = false := rfl

/-- V-S11. -/
theorem witness_EmptyTapsDrainTheRegister :
    (loadedWith 3 0 0x5).loaded = true ∧ (loadedWith 3 0 0x5).LoadedInv ∧
      (loadedWith 3 0 0x5).taps = 0 ∧ 1 ≤ 3 ∧ (loadedWith 3 0 0x5).len.toNat ≤ 3 := by decide

/-- V-S7, and the tap at the top of the register. -/
theorem witness_TapReadsItsArrayElement :
    ((loadedWith 9 0x008 0x008).loaded = true ∧ (loadedWith 9 0x008 0x008).LoadedInv ∧
      3 < (loadedWith 9 0x008 0x008).len.toNat ∧
      (loadedWith 9 0x008 0x008).taps = 1#16 <<< 3) ∧
    ((loadedWith 9 0x100 0x008).LoadedInv ∧ 8 < (loadedWith 9 0x100 0x008).len.toNat ∧
      (loadedWith 9 0x100 0x008).taps = 1#16 <<< 8) :=
  ⟨⟨rfl, by decide, by decide, rfl⟩, by decide, by decide, rfl⟩

/-- Two states that differ in RESULT. -/
theorem witness_StepDependsOnTheRegisterAlone :
    seeded.params = ({ seeded with result := 7#16 } : State).params ∧ seeded.loaded = true ∧
      ({ seeded with result := 7#16 } : State).loaded = true ∧
      seeded.state.toNat = ({ seeded with result := 7#16 } : State).state.toNat ∧
      seeded.taps.toNat = ({ seeded with result := 7#16 } : State).taps.toNat ∧
      seeded.len = ({ seeded with result := 7#16 } : State).len := by decide

/-- The zero state, and V-S6, whose sixteen tapped ones XOR to 0. -/
theorem witness_ZeroStateIsAbsorbing :
    ((loadedWith 4 0xF 0).loaded = true ∧ (loadedWith 4 0xF 0).state = 0) ∧
    ((loadedWith 16 0xFFFF 0xFFFF).loaded = true ∧
      ((Finset.range (loadedWith 16 0xFFFF 0xFFFF).params.nMax).filter fun t =>
        (loadedWith 16 0xFFFF 0xFFFF).state.getLsbD t = true ∧
          (loadedWith 16 0xFFFF 0xFFFF).taps.getLsbD t = true).card % 2 = 0) := by decide

theorem witness_StepsAreEventuallyPeriodic : seeded.loaded = true ∧ seeded.LoadedInv := by decide

/-- Both sides of the equivalence occur. -/
theorem witness_StepIsABijectionExactlyWithTheTopTap :
    (topTapped.loaded = true ∧ topTapped.LoadedInv ∧ topTapped.taps.getLsbD 3 = true) ∧
      (seeded.loaded = true ∧ seeded.LoadedInv ∧ seeded.taps.getLsbD 10 = false) := by decide

theorem witness_EveryStateIsOnACycleWithTheTopTap :
    (topTapped.loaded = true ∧ topTapped.LoadedInv ∧
      topTapped.taps.getLsbD (topTapped.len.toNat - 1) = true) ∧
    (seeded.loaded = true ∧ seeded.LoadedInv ∧
      seeded.taps.getLsbD (seeded.len.toNat - 1) = false) := by decide

theorem witness_ReturnedBitsFollowTheRecurrence : seeded.loaded = true ∧ seeded.LoadedInv := by
  decide

/-- k = -1 and k = K_MAX + 1 (V-R4, V-R5). -/
theorem witness_RandRefusesABadArgument :
    seeded.loaded = true ∧ ((-1 : Int) < 0 ∨ (seeded.params.kMax : Int) < -1) ∧
      ((17 : Int) < 0 ∨ (seeded.params.kMax : Int) < 17) := by decide

/-- k = 0 and k = K_MAX. -/
theorem witness_RandEqualsSuccessiveSteps :
    seeded.loaded = true ∧ 0 ≤ seeded.params.kMax ∧ 16 ≤ seeded.params.kMax := by decide

theorem witness_RandWritesOnlyItsOwnRegisters :
    seeded.loaded = true ∧ 0 ≤ seeded.params.kMax ∧ 16 ≤ seeded.params.kMax := by decide

/-- The first and the last bit of a RAND 16. -/
theorem witness_RandPutsTheFirstBitHighest :
    seeded.loaded = true ∧ 16 ≤ seeded.params.kMax ∧ 1 ≤ 1 ∧ 16 ≤ 16 := by decide

theorem witness_RandResultFitsItsBits : ∃ t, exec (.rand 8) seeded = .next t ∧ t.status = 0 :=
  ⟨_, rfl, rfl⟩

theorem witness_RandsConcatenate :
    seeded.Represents seedRegister ∧ seeded.LoadedInv ∧ 16 ≤ seeded.params.kMax ∧
      4 ≤ seeded.params.kMax :=
  ⟨seeded_represents, seeded_loadedInv, by decide, by decide⟩

/-- k = 1 and k = LEN. -/
theorem witness_RandResultIsTheLowBitsOfState :
    seeded.loaded = true ∧ seeded.LoadedInv ∧ 1 ≤ 1 ∧ 1 ≤ seeded.len.toNat ∧
      11 ≤ seeded.len.toNat ∧ 11 ≤ seeded.params.kMax := by decide

theorem witness_SmallRands : seeded.loaded = true := rfl

/-- A command that fails and one that succeeds. -/
theorem witness_AnErrorWritesStatusAlone :
    (unloaded.offer 2#32).accepts = true ∧ (seeded.offer 2#32).accepts = true ∧
      (afterStep (unloaded.offer 2#32)).status ≠ 0 := by decide

/-- A word of each kind. -/
theorem witness_ErrorsAreReportedInOrder :
    ((seeded.offer 0#32).accepts = true ∧ ∃ t, step (seeded.offer 0#32) = .next t) ∧
    ((seeded.offer 0x000B0001#32).accepts = true ∧
      decode (seeded.offer 0x000B0001#32).ports.cmd = some (.load 11) ∧
      ∃ t, step (seeded.offer 0x000B0001#32) = .next t) ∧
    (decode (seeded.offer 2#32).ports.cmd = some .step ∧
      ∃ t, step (seeded.offer 2#32) = .next t) ∧
    (decode (seeded.offer 0x00080003#32).ports.cmd = some (.rand 8) ∧
      ∃ t, step (seeded.offer 0x00080003#32) = .next t) :=
  ⟨⟨by decide, _, rfl⟩, ⟨by decide, by decide, _, rfl⟩, ⟨by decide, _, rfl⟩, by decide, _, rfl⟩

theorem witness_StepAndRandIgnoreTheOperandPorts :
    (∀ n, Instr.step ≠ .load n) ∧ ∀ n, Instr.rand 8 ≠ .load n := by simp

/-- Ports that agree in fill and taps and differ in the word. -/
theorem witness_EffectDependsOnOperandsAndRegistersOnly :
    ({ seeded.ports with cmd := 3#32 } : Ports seeded.params.nMax).fill = seeded.ports.fill ∧
      ({ seeded.ports with cmd := 3#32 } : Ports seeded.params.nMax).taps = seeded.ports.taps := by
  decide

theorem witness_CommandFrames :
    (∃ t, exec (.load 11) seeded = .next t) ∧ (∃ t, exec .step seeded = .next t) ∧
      ∃ t, exec (.rand 8) seeded = .next t := ⟨⟨_, rfl⟩, ⟨_, rfl⟩, _, rfl⟩

/-- RAND 3 offered to an idle block (V-H2), and the RANDs of one step and of K_MAX steps. -/
theorem witness_EngineMeetsTheAtomicRand :
    ((seeded.offer 0x00030003#32).accepts = true ∧
      decode (seeded.offer 0x00030003#32).ports.cmd = some (.rand (3 : Nat)) ∧
      (seeded.offer 0x00030003#32).loaded = true ∧ 1 ≤ 3 ∧ 3 ≤ seeded.params.kMax ∧
      (seeded.offer 0x00030003#32).noResetFor (3 - 1)) ∧
    (decode (seeded.offer 0x00010003#32).ports.cmd = some (.rand (1 : Nat)) ∧
      decode (seeded.offer 0x00100003#32).ports.cmd = some (.rand (16 : Nat)) ∧
      16 ≤ seeded.params.kMax) :=
  ⟨⟨by decide, by decide, rfl, by decide, by decide, rfl, fun _ hp =>
      absurd hp List.not_mem_nil⟩, by decide⟩

theorem witness_EngineIsBusyMeanwhile :
    (seeded.offer 0x00030003#32).accepts = true ∧
      decode (seeded.offer 0x00030003#32).ports.cmd = some (.rand (3 : Nat)) ∧
      (seeded.offer 0x00030003#32).loaded = true ∧ 3 ≤ seeded.params.kMax ∧ 1 ≤ 1 ∧ 1 < 3 ∧
      2 < 3 ∧ (seeded.offer 0x00030003#32).noResetFor (2 - 1) :=
  ⟨by decide, by decide, rfl, by decide, by decide, by decide, by decide, rfl, fun _ hp =>
    absurd hp List.not_mem_nil⟩

/-- A STEP, and a RAND of one step. -/
theorem witness_EngineAgreesOnEveryOtherEdge :
    (∀ k, (seeded.offer 2#32).accepts = true →
      decode (seeded.offer 2#32).ports.cmd = some (.rand k) → (seeded.offer 2#32).loaded = true →
      k ≤ 1 ∨ ((seeded.offer 2#32).params.kMax : Int) < k) ∧
    decode (seeded.offer 0x00010003#32).ports.cmd = some (.rand 1) :=
  ⟨fun k _ h => absurd ((show decode 2#32 = some .step by decide).symm.trans h) (by simp),
    by decide⟩

theorem witness_DoneMarksExactlyTheCompletions :
    ∃ t u, step (seeded.offer 0x00030003#32) = .next t ∧
      clockEdge (seeded.offer 0x00030003#32) = .next u ∧ t.done = true ∧ u.done = false :=
  ⟨_, _, rfl, rfl, rfl, by decide⟩

/-- Each clause: at a boundary, while BUSY, and with `rst` low. -/
theorem witness_OutputsAreDefinedAtBoundaries :
    seeded.cmdReady = true ∧ running.busy = true ∧ running.cmdReady = false ∧
      running.done = false ∧ seeded.ports.rst = false := by decide

theorem witness_RenderingIsTheSourcesText :
    seeded.Represents seedRegister ∧ 0 < seeded.len.toNat ∧ 10 < seeded.len.toNat :=
  ⟨seeded_represents, by decide, by decide⟩

theorem witness_StepRefinesTheSource : seeded.Represents seedRegister ∧ seeded.LoadedInv :=
  ⟨seeded_represents, seeded_loadedInv⟩

/-- A k the source accepts and one it reports. -/
theorem witness_RandRefinesTheSource :
    seeded.Represents seedRegister ∧ seeded.LoadedInv ∧ (8 : Int) ≤ seeded.params.kMax ∧
      (∃ v r', seedRegister.rand 8 = .ok (v, r')) ∧ (-1 : Int) ≤ seeded.params.kMax ∧
      seedRegister.rand (-1) = .error .invalidArgument :=
  ⟨seeded_represents, seeded_loadedInv, by decide, ⟨_, _, rfl⟩, by decide, rfl⟩

theorem witness_NewRefinesTheSource :
    Register.new [0, 1, 1, 0, 1, 0, 0, 0, 0, 1, 0] [8] = .ok seedRegister ∧
      1 ≤ [0, 1, 1, 0, 1, 0, 0, 0, 0, 1, 0].length ∧
      [0, 1, 1, 0, 1, 0, 0, 0, 0, 1, 0].length ≤ unloaded.params.nMax ∧
      unloaded.busy = false := by decide

theorem witness_ChainedRandsGiveTheUnboundedRand :
    seeded.Represents seedRegister ∧ seeded.LoadedInv := ⟨seeded_represents, seeded_loadedInv⟩

theorem witness_NewBuildsTheOperandWords :
    (∀ b ∈ ([1, 0, 1] : List Int), b = 0 ∨ b = 1) ∧ ∀ t ∈ ([2, 2, 2] : List Int), 0 ≤ t := by
  decide

/-- The ends of each range. -/
theorem witness_AssembledCommandsDecode :
    65535 ≤ 65535 ∧ 0xFFFF < 2 ^ Params.reference.nMax ∧ (-32768 : Int) ≤ -32768 ∧
      (32767 : Int) ≤ 32767 ∧ (-32769 : Int) < -32768 ∧ (32767 : Int) < 32768 ∧
      (-1 : Int) < 0 ∧ (65535 : Int) < 65536 := by decide

/-- Two well-formed commands at the ends of their ranges. -/
theorem witness_DecodeAndEncodeAgree :
    (Instr.load 65535).WF ∧ (Instr.rand (-32768)).WF ∧
      decode 0x80000003#32 = some (.rand (-32768)) := by decide

end Sys2Proof.Tests
end

section
/-! The rendering of R47: the text and the taps a reader sees, and that the text is the source's
`to_string`. -/

namespace Sys2Proof.Machine

@[simp] theorem State.length_render (s : State) : s.render.length = s.len.toNat := by
  simp [State.render]

theorem State.getElem_render (s : State) (i : Nat) (h : i < s.render.length) :
    s.render[i] = if s.arrayBit i then '1' else '0' := by
  simp [State.render]

/-- R47's sentence, with `arrayBit` spelled out as the bit of STATE. -/
theorem State.getElem?_render (s : State) {i : Nat} (h : i < s.len.toNat) :
    s.render[i]? = some (if s.state.getLsbD ((s.len.toNat - 1) - i) then '1' else '0') := by
  rw [List.getElem?_eq_getElem (by simpa using h), s.getElem_render, State.arrayBit]

/-- A position at or above N_MAX is out of the mask, so the range loses no tap. -/
theorem State.mem_renderTaps (s : State) (t : Nat) :
    t ∈ s.renderTaps ↔ s.taps.getLsbD t = true := by
  rw [State.renderTaps, List.mem_filter, List.mem_range]
  exact and_iff_right_of_imp BitVec.lt_of_getLsbD

/-- The texts agree in length and at each index, since array bit i is `state[i]` (R10). -/
theorem State.Represents.render_eq {s : State} {r : Register} (h : s.Represents r) :
    s.render = r.render := by
  apply List.ext_getElem
  · simpa [Register.render] using h.length
  · intro i _ hi
    have hbits : i < r.bits.length := by simpa [Register.render] using hi
    simp [State.getElem_render, Register.render, h.bits i hbits]

/-- Settles O52, from the length, the characters and the taps of the rendering, one lemma each. -/
theorem renderingIsTheSourcesText : Obligations.RenderingIsTheSourcesText := fun s =>
  ⟨s.length_render, fun _ h => s.getElem?_render h, fun _ h => h.render_eq, s.mem_renderTaps⟩

end Sys2Proof.Machine
end

section
/-! The opcode map of R78: each row's match and mask says what `decode` answers, and the decoded
command's mnemonic picks the row. -/

namespace Sys2Proof

/-- The upper half of a word is its quotient by 2^16 (R72). -/
theorem toNat_fieldImm16 (w : CmdWord) : (fieldImm16 w).toNat = w.toNat / 65536 := by
  have hw : w.toNat < 2 ^ 32 := w.isLt
  rw [fieldImm16, BitVec.extractLsb'_toNat, Nat.shiftRight_eq_div_pow]
  omega

/-- The same under two's complement, where the quotient rounds down (R73). -/
theorem toInt_fieldImm16 (w : CmdWord) : (fieldImm16 w).toInt = w.toInt / 65536 := by
  have hw : w.toNat < 2 ^ 32 := w.isLt
  rw [BitVec.toInt_eq_toNat_cond, BitVec.toInt_eq_toNat_cond, toNat_fieldImm16]
  split <;> split <;> omega

/-- The mask of LOAD and RAND keeps exactly the lower half of the word (R78). -/
theorem and_lowMask_eq_iff (w : CmdWord) (c : Half) :
    w &&& 0x0000FFFF#32 = c.setWidth 32 ↔ fieldLow w = c := by
  have hmask : (w &&& 0x0000FFFF#32).toNat = w.toNat % 2 ^ 16 := by
    rw [BitVec.toNat_and]
    exact Nat.and_two_pow_sub_one_eq_mod w.toNat 16
  rw [← BitVec.toNat_inj, ← BitVec.toNat_inj, hmask, fieldLow, BitVec.extractLsb'_toNat,
    BitVec.toNat_setWidth_of_le (by decide), Nat.shiftRight_zero]

theorem decode_eq_load_iff {w : CmdWord} {n : Nat} :
    decode w = some (.load n) ↔ fieldLow w = 0x0001#16 ∧ (fieldImm16 w).toNat = n := by
  obtain ⟨h, hd⟩ | ⟨rfl, hd⟩ | ⟨h, hd⟩ | ⟨h, -, -, hd⟩ := decode_cases w
  · simp [h, hd]
  · rw [hd]
    simp [fieldLow]
  · simp [h, hd]
  · simp [h, hd]

theorem decode_eq_step_iff {w : CmdWord} : decode w = some .step ↔ w = 0x00000002#32 := by
  obtain ⟨h, hd⟩ | ⟨rfl, hd⟩ | ⟨h, hd⟩ | ⟨-, h, -, hd⟩ := decode_cases w
  · exact iff_of_false (by simp [hd]) fun hw => by simp [hw, fieldLow] at h
  · simp [hd]
  · exact iff_of_false (by simp [hd]) fun hw => by simp [hw, fieldLow] at h
  · simp [h, hd]

theorem decode_eq_rand_iff {w : CmdWord} {k : Int} :
    decode w = some (.rand k) ↔ fieldLow w = 0x0003#16 ∧ (fieldImm16 w).toInt = k := by
  obtain ⟨h, hd⟩ | ⟨rfl, hd⟩ | ⟨h, hd⟩ | ⟨-, -, h, hd⟩ := decode_cases w
  · simp [h, hd]
  · rw [hd]
    simp [fieldLow]
  · simp [h, hd]
  · simp [h, hd]

/-! ## The three rows -/

theorem matches_load_iff (w : CmdWord) :
    w &&& 0x0000FFFF#32 = 0x00000001#32 ↔ decode w = some (.load (w.toNat / 65536)) :=
  (and_lowMask_eq_iff w 0x0001#16).trans <| by
    rw [decode_eq_load_iff, and_iff_left (toNat_fieldImm16 w)]

theorem matches_step_iff (w : CmdWord) :
    w &&& 0xFFFFFFFF#32 = 0x00000002#32 ↔ decode w = some .step := by
  rw [decode_eq_step_iff, show (0xFFFFFFFF#32 : CmdWord) = BitVec.allOnes 32 from rfl,
    BitVec.and_allOnes]

theorem matches_rand_iff (w : CmdWord) :
    w &&& 0x0000FFFF#32 = 0x00000003#32 ↔ decode w = some (.rand (w.toInt / 65536)) :=
  (and_lowMask_eq_iff w 0x0003#16).trans <| by
    rw [decode_eq_rand_iff, and_iff_left (toInt_fieldImm16 w)]

/-! ## The map as a whole -/

/-- A word matches the row with the mnemonic of the command it decodes to, and no other row. -/
theorem matches_row_iff (w : CmdWord) {r : OpcodeRow} (hr : r ∈ opcodeMap) :
    w &&& r.maskBits = r.matchBits ↔ ∃ i, decode w = some i ∧ i.mnemonic = r.mnemonic := by
  simp only [opcodeMap, List.mem_cons, List.not_mem_nil, or_false] at hr
  obtain rfl | rfl | rfl := hr
  · refine ⟨fun h => ⟨_, (matches_load_iff w).mp h, rfl⟩, fun ⟨i, hi, hm⟩ => ?_⟩
    cases i <;> simp [Instr.mnemonic] at hm
    exact (and_lowMask_eq_iff w 0x0001#16).mpr (decode_eq_load_iff.mp hi).1
  · refine ⟨fun h => ⟨_, (matches_step_iff w).mp h, rfl⟩, fun ⟨i, hi, hm⟩ => ?_⟩
    cases i <;> simp [Instr.mnemonic] at hm
    exact (matches_step_iff w).mpr hi
  · refine ⟨fun h => ⟨_, (matches_rand_iff w).mp h, rfl⟩, fun ⟨i, hi, hm⟩ => ?_⟩
    cases i <;> simp [Instr.mnemonic] at hm
    exact (and_lowMask_eq_iff w 0x0003#16).mpr (decode_eq_rand_iff.mp hi).1

theorem exists_row_of_mnemonic (i : Instr) : ∃ r ∈ opcodeMap, r.mnemonic = i.mnemonic := by
  cases i <;> simp [opcodeMap, Instr.mnemonic]

theorem countP_mnemonic_eq_one (i : Instr) :
    (opcodeMap.countP fun r => i.mnemonic == r.mnemonic) = 1 := by
  cases i <;> rfl

/-- R78's "Every word that matches no row is ILLEGAL". -/
theorem decode_eq_none_iff (w : CmdWord) :
    decode w = none ↔ ∀ r ∈ opcodeMap, w &&& r.maskBits ≠ r.matchBits := by
  constructor
  · intro hd r hr hmatch
    obtain ⟨i, hi, -⟩ := (matches_row_iff w hr).mp hmatch
    simp [hd] at hi
  · intro hno
    by_contra hd
    obtain ⟨i, hi⟩ := Option.ne_none_iff_exists'.mp hd
    obtain ⟨r, hr, hri⟩ := exists_row_of_mnemonic i
    exact hno r hr ((matches_row_iff w hr).mpr ⟨i, hi, hri.symm⟩)

/-- R78's "The three rows never overlap": each row that covers the word carries the mnemonic of
its command, and no two rows share a mnemonic. -/
theorem countP_covers_le_one (w : CmdWord) : (opcodeMap.countP fun r => r.covers w) ≤ 1 := by
  cases hd : decode w with
  | none =>
    have hno := (decode_eq_none_iff w).mp hd
    rw [List.countP_eq_zero.mpr fun r hr => by simpa [OpcodeRow.covers] using hno r hr]
    exact Nat.zero_le 1
  | some i =>
    refine (List.countP_mono_left fun r hr hcov => ?_).trans_eq (countP_mnemonic_eq_one i)
    obtain ⟨j, hj, hjr⟩ := (matches_row_iff w hr).mp (by simpa [OpcodeRow.covers] using hcov)
    obtain rfl : i = j := Option.some.inj (hd.symm.trans hj)
    exact beq_iff_eq.mpr hjr

/-- Settles O4, row by row and then from the mnemonic that picks the row. -/
theorem opcodeMapDecides : Obligations.OpcodeMapDecides := fun w =>
  ⟨matches_load_iff w, matches_step_iff w, matches_rand_iff w, countP_covers_le_one w,
    decode_eq_none_iff w, fun i hi => by
      obtain ⟨r, hr, hri⟩ := exists_row_of_mnemonic i
      exact ⟨r, hr, hri, (matches_row_iff w hr).mpr ⟨i, hi, hri.symm⟩⟩⟩

end Sys2Proof
end

section
/-! LOAD's three checks (R101, R102, R103): what each condition says bit by bit and by mask, and the
code that a LOAD failing it ends with. -/

namespace Sys2Proof.Machine

theorem badLength_eq_false {p : Params} {n : Nat} (hpos : 1 ≤ n) (hmax : n ≤ p.nMax) :
    badLength p n = false := by
  rw [← Bool.not_eq_true, badLength_eq_true_iff]
  omega

/-- The two forms of R102 and R103, by bit position and by mask: `outsideLength` is both. -/
theorem exists_getLsbD_ge_iff_mask_ne_zero {w : Nat} (len : Nat) (v : BitVec w) :
    (∃ p, len ≤ p ∧ v.getLsbD p = true) ↔ v &&& ~~~ones w len ≠ 0 :=
  (outsideLength_eq_true_iff len v).symm.trans bne_iff_ne

section checks

variable {s : State} {n : Nat}

theorem exec_load_badLength (hlen : badLength s.params n = true) :
    exec (.load n) s = .next (finish .invalidLength s) := by
  have h : afterLoad n s = finish .invalidLength s := by simpa [hlen] using afterLoad_cases n s
  rw [exec_load, h]

/-- The fill is checked before the taps, so nothing is asked of them (R166). -/
theorem exec_load_badFill (hlen : badLength s.params n = false)
    (hfill : outsideLength n s.ports.fill = true) :
    exec (.load n) s = .next (finish .invalidState s) := by
  have h : afterLoad n s = finish .invalidState s := by
    simpa [hlen, hfill] using afterLoad_cases n s
  rw [exec_load, h]

theorem exec_load_badTap (hlen : badLength s.params n = false)
    (hfill : outsideLength n s.ports.fill = false) (htaps : outsideLength n s.ports.taps = true) :
    exec (.load n) s = .next (finish .invalidTap s) := by
  have h : afterLoad n s = finish .invalidTap s := by
    simpa [hlen, hfill, htaps] using afterLoad_cases n s
  rw [exec_load, h]

end checks

/-- Settles O17: the first check of R104 fails. -/
theorem loadRefusesABadLength : Obligations.LoadRefusesABadLength := fun s n h =>
  exec_load_badLength ((badLength_eq_true_iff s.params n).mpr h)

/-- Settles O18: the length passes and the fill's check fails. -/
theorem loadRefusesAFillOutsideItsLength : Obligations.LoadRefusesAFillOutsideItsLength :=
  fun s n hpos hmax =>
    ⟨exists_getLsbD_ge_iff_mask_ne_zero n s.ports.fill, fun hbit =>
      exec_load_badFill (badLength_eq_false hpos hmax)
        ((outsideLength_eq_true_iff n s.ports.fill).mpr hbit)⟩

/-- Settles O19: the length and the fill pass and the taps' check fails. -/
theorem loadRefusesATapOutsideItsLength : Obligations.LoadRefusesATapOutsideItsLength := by
  intro s n hpos hmax hfill
  have hgood : outsideLength n s.ports.fill = false :=
    (outsideLength_eq_false_iff n s.ports.fill).mpr ((within_iff n s.ports.fill).mpr hfill)
  exact ⟨exists_getLsbD_ge_iff_mask_ne_zero n s.ports.taps, fun hbit =>
    exec_load_badTap (badLength_eq_false hpos hmax) hgood
      ((outsideLength_eq_true_iff n s.ports.taps).mpr hbit)⟩

end Sys2Proof.Machine
end

section
/-! One STEP on a loaded register, bit by bit (R120 to R125, R127): the feedback bit, STATE and
RESULT after it. -/

namespace Sys2Proof.Machine

/-- `STATE << 1 | fb` at N_MAX+1 bits (R123) is what `shiftIn` forms by `concat`. -/
theorem concat_eq_shiftLeft_or_ofNat {w : Nat} (x : BitVec w) (b : Bool) :
    x.concat b = x.setWidth (w + 1) <<< 1 ||| BitVec.ofNat (w + 1) b.toNat := by
  apply BitVec.eq_of_getLsbD_eq
  intro p hp
  rw [BitVec.getLsbD_concat]
  cases p with
  | zero => cases b <;> simp
  | succ p =>
    have hw : p < w := Nat.succ_lt_succ_iff.mp hp
    cases b <;> simp [hw]

theorem zextBit_eq_ofNat (k : Nat) (b : Bool) : zextBit k b = BitVec.ofNat k b.toNat := by
  apply BitVec.eq_of_toNat_eq
  simp [zextBit]

/-- The zero state under every tap mask and every length (R127). -/
@[simp] theorem nextBits_zero {w : Nat} (len : Nat) (taps : BitVec w) :
    nextBits len taps 0#w = 0#w := by
  apply BitVec.eq_of_getLsbD_eq
  intro p _
  simp [nextBits, getLsbD_shiftIn]

/-- Of a mask with one tap, the tree sees that bit and no other (R122). -/
theorem parityBelow_and_twoPow {w : Nat} (x : BitVec w) (t m : Nat) (hm : m ≤ w) :
    parityBelow (x &&& BitVec.twoPow w t) m = (decide (t < m) && x.getLsbD t) := by
  induction m with
  | zero => rfl
  | succ m ih =>
    rw [parityBelow, ih (by omega), BitVec.getLsbD_and, BitVec.getLsbD_twoPow]
    obtain h | rfl | h := Nat.lt_trichotomy t m
    · simp [h, h.ne, Nat.lt_succ_of_lt h]
    · simp [Nat.lt_of_succ_le hm]
    · simp [Nat.not_lt.mpr h.le, h.ne', Nat.not_lt.mpr (Nat.succ_le_of_lt h)]

theorem feedback_one_tap {w t : Nat} (ht : t < w) (x : BitVec w) :
    feedback (1#w <<< t) x = x.getLsbD t := by
  rw [feedback, parity, ← BitVec.twoPow_eq, parityBelow_and_twoPow x t w le_rfl]
  simp [ht]

section oneStep
variable (s : State)

theorem stepRegister_eq : stepRegister s =
    { s with
      state := s.shifted, result := BitVec.ofNat s.params.kMax s.fb.toNat, status := 0,
      done := true } := by
  rw [← zextBit_eq_ofNat]
  rfl

/-- `fb` is 1 when the number of tapped ones is odd (R120). -/
theorem State.fb_eq_true_iff : s.fb = true ↔ ((Finset.range s.params.nMax).filter fun t =>
    s.state.getLsbD t = true ∧ s.taps.getLsbD t = true).card % 2 = 1 := by
  rw [State.fb, feedback_eq_card, decide_eq_true_iff]

theorem stepRegister_getLsbD_result (j : Nat) :
    (stepRegister s).result.getLsbD j = (decide (j = 0) && s.fb) := by
  have hpos : 0 < s.params.kMax := s.params.kMax_pos
  show (zextBit s.params.kMax s.fb).getLsbD j = _
  rw [getLsbD_zextBit]
  by_cases h : j = 0 <;> simp [h, hpos]

theorem stepRegister_result_toNat : (stepRegister s).result.toNat = s.fb.toNat :=
  zextBit_toNat s.params.kMax_pos s.fb

/-- Every bit of STATE' (R123). -/
theorem State.shifted_getLsbD (p : Nat) : s.shifted.getLsbD p =
    (decide (p < s.params.nMax) && decide (p < s.len.toNat) &&
      if p = 0 then s.fb else s.state.getLsbD (p - 1)) :=
  getLsbD_shiftIn s.len.toNat s.state s.fb p

theorem State.shifted_getLsbD_zero (hlen : 1 ≤ s.len.toNat) : s.shifted.getLsbD 0 = s.fb := by
  rw [s.shifted_getLsbD]
  simp [Nat.lt_of_succ_le hlen, Nat.lt_of_succ_le s.params.nMax_pos]

theorem State.shifted_getLsbD_pos {p : Nat} (hp : 1 ≤ p) (hlen : p < s.len.toNat)
    (hw : p < s.params.nMax) : s.shifted.getLsbD p = s.state.getLsbD (p - 1) := by
  rw [s.shifted_getLsbD]
  simp [hlen, hw, Nat.one_le_iff_ne_zero.mp hp]

end oneStep

/-- Settles O22: R123's formula is `shiftIn`, and its bits are those of the shift. -/
theorem stepShiftsInTheFeedbackBit : Obligations.StepShiftsInTheFeedbackBit := by
  rintro s hloaded ⟨hpos, hmax, -, -⟩
  refine ⟨s.shifted, s.fb, ?_, s.fb_eq_true_iff, ?_, ?_, ?_, ?_⟩
  · rw [exec_step_loaded hloaded, stepRegister_eq]
  · rw [← concat_eq_shiftLeft_or_ofNat]
    rfl
  · exact s.shifted_getLsbD_zero hpos
  · intro p hp hlt
    exact s.shifted_getLsbD_pos hp (by omega) (by omega)
  · exact (within_iff _ _).mp (within_shiftIn _ _ _)

/-- Settles O23, from the bits of RESULT and of STATE after the step. -/
theorem stepReturnsTheNewBit : Obligations.StepReturnsTheNewBit := by
  rintro s hloaded ⟨hpos, -, -, -⟩
  refine ⟨stepRegister s, exec_step_loaded hloaded, rfl, ?_, s.shifted_getLsbD_zero hpos, ?_⟩
  · rw [stepRegister_getLsbD_result]
    simp
  · intro j hj
    rw [stepRegister_getLsbD_result]
    simp [Nat.one_le_iff_ne_zero.mp hj]

/-- Settles O26: the tree of a one-tap mask is that tap's bit, and R10's index map is its own
inverse. -/
theorem tapReadsItsArrayElement : Obligations.TapReadsItsArrayElement := by
  rintro s t hloaded ⟨-, hmax, -, -⟩ ht htaps
  have hres : (stepRegister s).result.getLsbD 0 = s.state.getLsbD t := by
    rw [stepRegister_getLsbD_result, State.fb, htaps, feedback_one_tap (ht.trans_le hmax)]
    simp
  have hindex : (s.len.toNat - 1) - ((s.len.toNat - 1) - t) = t := by omega
  exact ⟨stepRegister s, exec_step_loaded hloaded, hres, by rw [hres, State.arrayBit, hindex]⟩

/-- Settles O28: the zero state gives fb = 0 and shifts to itself; an even number of tapped ones
gives fb = 0. -/
theorem zeroStateIsAbsorbing : Obligations.ZeroStateIsAbsorbing := by
  intro s hloaded
  rw [exec_step_loaded hloaded]
  constructor
  · intro hzero
    have hfb : s.fb = false := by rw [State.fb, hzero]; exact feedback_zero_bits s.taps
    have hshifted : s.shifted = 0 := by rw [State.shifted, hzero]; exact nextBits_zero _ _
    rw [stepRegister_eq, hfb, hshifted]
    rfl
  · intro heven
    have hfb : s.fb = false := by
      rw [← Bool.not_eq_true, s.fb_eq_true_iff, heven]
      decide
    refine ⟨stepRegister s, rfl, ?_, ?_⟩
    · rw [stepRegister_result_toNat, hfb, Bool.toNat_false]
    · show s.shifted.getLsbD 0 = false
      simp [s.shifted_getLsbD 0, hfb]

end Sys2Proof.Machine
end

section
/-! Runs of STEPs on a loaded register (R121, R126, R130): the state and the bits after `m` of them are
`bitsAfter` and `bitOut`, functions of STATE, TAPS and LEN alone. -/

namespace Sys2Proof.Machine

/-! ## The register after `m` steps -/

/-- With no taps each step shifts in a 0, so after `len` steps nothing of the start is left (R121). -/
theorem bitsAfter_zero_taps {w len m : Nat} {x : BitVec w} (hx : Within len x) (hm : len ≤ m) :
    bitsAfter len 0#w x m = 0#w := by
  apply BitVec.eq_of_getLsbD_eq
  intro p hp
  rw [BitVec.getLsbD_zero]
  by_cases hlen : p < len
  · rw [getLsbD_bitsAfter _ _ _ _ hlen hp, if_pos (hlen.trans_le hm)]
    exact feedback_zero_taps _
  · exact (within_iff _ _).mp (within_bitsAfter hx m) p (Nat.le_of_not_lt hlen)

/-- R130: the next bit is the XOR, over the taps, of the bits returned `t` steps ago; those before the
first step are bits of the start. -/
theorem bitOut_succ_eq_true_iff {w len : Nat} {taps : BitVec w} (x : BitVec w)
    (htaps : Within len taps) (j : Nat) :
    bitOut len taps x (j + 1) = true ↔ ((Finset.range w).filter fun t =>
      taps.getLsbD t = true ∧
        (if t < j then bitOut len taps x (j - t) else x.getLsbD (t - j)) = true).card % 2 = 1 := by
  have hbit : ∀ t ∈ Finset.range w,
      ((bitsAfter len taps x j).getLsbD t = true ∧ taps.getLsbD t = true ↔
        taps.getLsbD t = true ∧
          (if t < j then bitOut len taps x (j - t) else x.getLsbD (t - j)) = true) := by
    intro t ht
    rw [and_comm]
    refine and_congr_right fun htap => ?_
    have hlen : t < len := by
      by_contra hge
      simp [(within_iff _ _).mp htaps t (Nat.le_of_not_lt hge)] at htap
    rw [getLsbD_bitsAfter taps x j t hlen (Finset.mem_range.mp ht)]
  rw [bitOut, Nat.add_sub_cancel, feedback_eq_card, decide_eq_true_iff, Finset.filter_congr hbit]

section congr
variable {w w' : Nat} {taps x : BitVec w} {taps' x' : BitVec w'}

theorem bitsAfter_toNat_congr (hw : w = w') (htaps : taps.toNat = taps'.toNat)
    (hx : x.toNat = x'.toNat) (len m : Nat) :
    (bitsAfter len taps x m).toNat = (bitsAfter len taps' x' m).toNat := by
  subst hw
  rw [BitVec.eq_of_toNat_eq htaps, BitVec.eq_of_toNat_eq hx]

theorem bitOut_congr (hw : w = w') (htaps : taps.toNat = taps'.toNat)
    (hx : x.toNat = x'.toNat) (len j : Nat) : bitOut len taps x j = bitOut len taps' x' j := by
  subst hw
  rw [BitVec.eq_of_toNat_eq htaps, BitVec.eq_of_toNat_eq hx]

end congr

/-! ## The same, on State -/

theorem stepsRegister_state_toNat (m : Nat) (s : State) :
    (stepsRegister m s).state.toNat = (bitsAfter s.len.toNat s.taps s.state m).toNat := by
  obtain ⟨r, st, d, h⟩ := stepsRegister_eq m s
  rw [h]

theorem stepsRegister_getLsbD_state (m : Nat) (s : State) (p : Nat) :
    (stepsRegister m s).state.getLsbD p = (bitsAfter s.len.toNat s.taps s.state m).getLsbD p := by
  rw [← BitVec.testBit_toNat, stepsRegister_state_toNat, BitVec.testBit_toNat]

theorem stepsRegister_succ_result_toNat (m : Nat) (s : State) :
    (stepsRegister (m + 1) s).result.toNat =
      (bitOut s.len.toNat s.taps s.state (m + 1)).toNat := by
  rw [stepsRegister_succ_eq]
  exact zextBit_toNat s.params.kMax_pos _

theorem stepsRegister_succ_status (m : Nat) (s : State) : (stepsRegister (m + 1) s).status = 0 := by
  rw [stepsRegister_succ_eq]

/-! ## The obligations -/

/-- Settles O25: an empty mask returns 0 and shifts 0 in, and `bitsAfter_zero_taps` empties STATE. -/
theorem emptyTapsDrainTheRegister : Obligations.EmptyTapsDrainTheRegister := by
  rintro s hloaded ⟨hpos, -, hstate, -⟩ htaps m
  refine ⟨stepsRegister m s, runSteps_loaded m hloaded, fun hm => ?_, fun hm => ?_⟩
  · obtain ⟨n, rfl⟩ := Nat.exists_eq_add_of_le' hm
    have hbit : bitOut s.len.toNat s.taps s.state (n + 1) = false := by
      rw [bitOut, htaps]
      exact feedback_zero_taps _
    constructor
    · rw [stepsRegister_succ_result_toNat, hbit, Bool.toNat_false]
    · rw [stepsRegister_getLsbD_state, getLsbD_bitsAfter _ _ _ _ hpos s.params.nMax_pos,
        if_pos n.succ_pos]
      exact hbit
  · rw [stepsRegister_state_toNat, htaps]
    exact congrArg BitVec.toNat (bitsAfter_zero_taps hstate hm)

/-- Settles O27: STATE and RESULT after the steps are functions of STATE, TAPS and LEN. -/
theorem stepDependsOnTheRegisterAlone : Obligations.StepDependsOnTheRegisterAlone := by
  intro s u hparams hs hu hstate htaps hlen m
  have hw : s.params.nMax = u.params.nMax := congrArg Params.nMax hparams
  refine ⟨stepsRegister (m + 1) s, stepsRegister (m + 1) u, runSteps_loaded _ hs,
    runSteps_loaded _ hu, ?_, ?_, stepsRegister_succ_status m s, stepsRegister_succ_status m u⟩
  · rw [stepsRegister_state_toNat, stepsRegister_state_toNat, hlen,
      bitsAfter_toNat_congr hw htaps hstate]
  · rw [stepsRegister_succ_result_toNat, stepsRegister_succ_result_toNat, hlen,
      bitOut_congr hw htaps hstate]

/-- Settles O32: the bits of STATE after `j` steps, and the recurrence read through them. -/
theorem returnedBitsFollowTheRecurrence : Obligations.ReturnedBitsFollowTheRecurrence := by
  rintro s hloaded ⟨-, hmax, -, htaps⟩ j
  have hret (p : Nat) (b : Bool) : (if p < j then returnedBit (j - p) s else b) =
      if p < j then bitOut s.len.toNat s.taps s.state (j - p) else b :=
    ite_congr rfl (fun hp => returnedBit_loaded (Nat.sub_pos_of_lt hp) hloaded) fun _ => rfl
  refine ⟨stepsRegister j s, runSteps_loaded j hloaded, fun p hp => ?_, ?_⟩
  · rw [hret, stepsRegister_getLsbD_state, getLsbD_bitsAfter _ _ _ _ hp (hp.trans_le hmax)]
  · simp only [hret]
    rw [returnedBit_loaded j.succ_pos hloaded]
    exact bitOut_succ_eq_true_iff s.state htaps j

end Sys2Proof.Machine
end

section
/-! Periodicity (R128): a register of length LEN takes at most 2^LEN - 1 non-zero states, and the zero
state is a period of its own. -/

namespace Sys2Proof.Machine

theorem toNat_lt_two_pow_of_within {w len : Nat} {x : BitVec w} (hx : Within len x) :
    x.toNat < 2 ^ len :=
  Nat.lt_pow_two_of_testBit _ fun p hp => (within_iff len x).mp hx p hp

/-- Among 2^len states of a length that are all different from 0, two are the same. -/
theorem exists_bitsAfter_repeat {w len : Nat} {taps x : BitVec w} (hx : Within len x)
    (hne : ∀ m, bitsAfter len taps x m ≠ 0#w) :
    ∃ i j, i < j ∧ j < 2 ^ len ∧ bitsAfter len taps x i = bitsAfter len taps x j := by
  have hmaps : Set.MapsTo (fun m => (bitsAfter len taps x m).toNat)
      (Finset.range (2 ^ len)) (Finset.Ico 1 (2 ^ len)) := by
    intro m _
    have hlt := toNat_lt_two_pow_of_within (within_bitsAfter (taps := taps) hx m)
    have hpos : (bitsAfter len taps x m).toNat ≠ 0 := fun h =>
      hne m (BitVec.eq_of_toNat_eq h)
    exact Finset.mem_coe.mpr (Finset.mem_Ico.mpr ⟨Nat.one_le_iff_ne_zero.mpr hpos, hlt⟩)
  have hcard : (Finset.Ico 1 (2 ^ len)).card < (Finset.range (2 ^ len)).card := by
    rw [Nat.card_Ico, Finset.card_range]
    exact Nat.sub_lt (Nat.two_pow_pos len) Nat.one_pos
  obtain ⟨i, hi, j, hj, hij, heq⟩ := Finset.exists_ne_map_eq_of_card_lt_of_maps_to hcard hmaps
  rw [Finset.mem_range] at hi hj
  have heq := BitVec.eq_of_toNat_eq heq
  obtain h | h := Nat.lt_or_gt_of_ne hij
  · exact ⟨i, j, h, hj, heq⟩
  · exact ⟨j, i, h, hi, heq.symm⟩

/-- Some state of the orbit comes back within 2^len - 1 steps. -/
theorem exists_bitsAfter_return {w len : Nat} {taps x : BitVec w} (hlen : 1 ≤ len)
    (hx : Within len x) :
    ∃ m p, 1 ≤ p ∧ p ≤ 2 ^ len - 1 ∧ bitsAfter len taps x (m + p) = bitsAfter len taps x m := by
  by_cases hzero : ∃ m, bitsAfter len taps x m = 0#w
  · obtain ⟨m, hm⟩ := hzero
    have hpow : 2 ^ 1 ≤ 2 ^ len := Nat.pow_le_pow_right Nat.two_pos hlen
    exact ⟨m, 1, le_rfl, by omega, by rw [bitsAfter_succ, hm, nextBits_zero]⟩
  · push Not at hzero
    obtain ⟨i, j, hij, hj, heq⟩ := exists_bitsAfter_repeat hx hzero
    exact ⟨i, j - i, by omega, by omega, by rw [Nat.add_sub_cancel' hij.le, heq]⟩

/-- What came back once comes back forever, since each state decides the next. -/
theorem bitsAfter_add_period {w len m p : Nat} {taps x : BitVec w}
    (h : bitsAfter len taps x (m + p) = bitsAfter len taps x m) {j : Nat} (hj : m ≤ j) :
    bitsAfter len taps x (j + p) = bitsAfter len taps x j := by
  obtain ⟨d, rfl⟩ := Nat.exists_eq_add_of_le hj
  rw [Nat.add_right_comm, bitsAfter_add, h, ← bitsAfter_add]

/-- Settles O29, by the pigeonhole principle on the non-zero states of the orbit. -/
theorem stepsAreEventuallyPeriodic : Obligations.StepsAreEventuallyPeriodic := by
  rintro s hloaded ⟨hpos, -, hstate, -⟩
  obtain ⟨m, p, hp, hle, hreturn⟩ := exists_bitsAfter_return (taps := s.taps) hpos hstate
  refine ⟨m, p, hp, hle, fun j hj => ⟨stepsRegister j s, stepsRegister (j + p) s,
    runSteps_loaded j hloaded, runSteps_loaded (j + p) hloaded, ?_⟩⟩
  rw [stepsRegister_state_toNat, stepsRegister_state_toNat, bitsAfter_add_period hreturn hj]

end Sys2Proof.Machine
end

section
/-! RAND beside the source's `rand` (R140, R147): STEP simulates `Register.shift`, so the loop of RAND
simulates the source's loop, and two RANDs are one longer loop of the source. -/

namespace Sys2Proof.Machine

/-! ## The source's loop -/

/-- The accumulator only collects: the register does not depend on it. -/
theorem randFrom_snd (m : Nat) (r : Register) (acc : Nat) :
    (Register.randFrom m r acc).2 = Register.shift^[m] r := by
  induction m with
  | zero => rfl
  | succ m ih => rw [randFrom_succ, ih, Function.iterate_succ_apply']

/-- A start value is shifted up by one position a step, above the bits collected from 0. -/
theorem randFrom_fst (m : Nat) (r : Register) (acc : Nat) :
    (Register.randFrom m r acc).1 = acc * 2 ^ m + (Register.randFrom m r 0).1 := by
  induction m with
  | zero => simp [Register.randFrom]
  | succ m ih =>
    simp only [randFrom_succ, randFrom_snd, ih, Nat.pow_succ]
    ring

/-- R147 for the source: `rand(a)` and then `rand(b)` make `rand(a+b)`. -/
theorem randFrom_add_fst (a b : Nat) (r : Register) :
    (Register.randFrom (a + b) r 0).1 = (Register.randFrom a r 0).1 * 2 ^ b +
      (Register.randFrom b (Register.randFrom a r 0).2 0).1 := by
  rw [randFrom_add, randFrom_fst]

theorem randFrom_add_snd (a b : Nat) (r : Register) :
    (Register.randFrom (a + b) r 0).2 =
      (Register.randFrom b (Register.randFrom a r 0).2 0).2 := by
  rw [randFrom_add, randFrom_snd, randFrom_snd b _ 0]

/-! ## The source's step -/

theorem Register.length_shift (r : Register) (h : 1 ≤ r.bits.length) :
    r.shift.bits.length = r.bits.length := by
  rw [Register.shift, List.length_append, List.length_tail, List.length_singleton]
  exact Nat.sub_add_cancel h

/-- "remove the element at index 0; append `new_bit` at the new tail" (R123), element by element. -/
theorem Register.getElem_shift (r : Register) (i : Nat) (hi : i < r.shift.bits.length) :
    r.shift.bits[i] = if h : i + 1 < r.bits.length then r.bits[i + 1] else r.newBit := by
  simp only [Register.shift, List.getElem_append, List.getElem_tail, List.length_tail,
    Nat.lt_sub_iff_add_lt, List.getElem_singleton]

/-- An XOR over a list is the parity of a sum. -/
theorem foldr_xor_eq_decide_sum (ts : List Nat) (g : Nat → Bool) :
    ts.foldr (fun t b => xor b (g t)) false =
      decide ((ts.map fun t => (g t).toNat).sum % 2 = 1) := by
  induction ts with
  | nil => rfl
  | cons t ts ih =>
    rw [List.foldr_cons, ih, List.map_cons, List.sum_cons]
    obtain h | h := Nat.mod_two_eq_zero_or_one (ts.map fun t => (g t).toNat).sum <;>
      cases g t <;> simp [Nat.add_mod, h]

/-- A tap listed an even number of times cancels (C1), so the XOR over the list counts the taps listed
an odd number of times. -/
theorem foldr_xor_eq_decide_card (ts : List Nat) (g : Nat → Bool) :
    ts.foldr (fun t b => xor b (g t)) false =
      decide ((ts.toFinset.filter fun t => ts.count t % 2 = 1 ∧ g t = true).card % 2 = 1) := by
  have hterm (t : Nat) : ts.count t • (g t).toNat % 2 =
      (if ts.count t % 2 = 1 ∧ g t = true then 1 else 0) % 2 := by
    obtain h | h := Nat.mod_two_eq_zero_or_one (ts.count t) <;> cases g t <;> simp [h]
  rw [foldr_xor_eq_decide_sum, Finset.sum_list_map_count, Finset.card_filter, Finset.sum_nat_mod,
    Finset.sum_congr rfl fun t _ => hterm t, ← Finset.sum_nat_mod]

/-! ## STEP and RAND keep the register well formed (R45) -/

section loadedInv
variable {s : State}

theorem loadedInv_stepsRegister (hinv : s.LoadedInv) (m : Nat) : (stepsRegister m s).LoadedInv := by
  obtain ⟨hpos, hmax, hstate, htaps⟩ := hinv
  obtain ⟨_, _, _, h⟩ := stepsRegister_eq m s
  rw [h]
  exact ⟨hpos, hmax, within_bitsAfter hstate m, htaps⟩

theorem loadedInv_randRegister (hinv : s.LoadedInv) (k : Nat) : (randRegister k s).LoadedInv := by
  obtain ⟨hpos, hmax, hstate, htaps⟩ := hinv
  have hstate' : Within s.len.toNat (randRegister k s).state := by
    rw [randRegister_state]
    exact within_bitsAfter hstate k
  exact ⟨hpos, hmax, hstate', htaps⟩

end loadedInv

/-! ## STEP simulates the source's step -/

section represents
variable {s u : State} {r : Register}

/-- A Register is represented by STATE, TAPS, LEN and LOADED alone. -/
theorem State.Represents.congr (h : s.Represents r) (hloaded : u.loaded = s.loaded)
    (hlen : u.len = s.len) (hstate : u.state.toNat = s.state.toNat)
    (htaps : u.taps.toNat = s.taps.toNat) : u.Represents r where
  loaded := hloaded.trans h.loaded
  length := hlen ▸ h.length
  bits i hi := by
    rw [← h.bits i hi, State.arrayBit, State.arrayBit, hlen, ← BitVec.testBit_toNat, hstate,
      BitVec.testBit_toNat]
  taps t := by rw [← h.taps t, ← BitVec.testBit_toNat, htaps, BitVec.testBit_toNat]

/-- The bit tap `t` reads is `STATE[t]` (R10, R122). -/
theorem State.Represents.tapped_eq (h : s.Represents r) {t : Nat} (ht : t < s.len.toNat) :
    r.tapped t = s.state.getLsbD t := by
  have hlen := h.length
  have hi : (r.bits.length - 1) - t < r.bits.length := by omega
  have hback : (s.len.toNat - 1) - ((r.bits.length - 1) - t) = t := by omega
  rw [Register.tapped, List.getD_eq_getElem _ _ hi, ← h.bits _ hi, State.arrayBit, hback]

/-- The feedback tree computes the source's new bit (R120): the odd taps of the list are the mask. -/
theorem State.Represents.fb_eq (h : s.Represents r) (hinv : s.LoadedInv) : s.fb = r.newBit := by
  obtain ⟨-, -, -, htaps⟩ := hinv
  have hlt {t : Nat} (ht : s.taps.getLsbD t = true) : t < s.len.toNat := by
    by_contra hge
    simp [(within_iff _ _).mp htaps t (Nat.le_of_not_lt hge)] at ht
  have hodd (t : Nat) : r.taps.count t % 2 = 1 ↔ s.taps.getLsbD t = true := by
    rw [h.taps, decide_eq_true_iff]
  have hset : (Finset.range s.params.nMax).filter
        (fun t => s.state.getLsbD t = true ∧ s.taps.getLsbD t = true) =
      r.taps.toFinset.filter fun t => r.taps.count t % 2 = 1 ∧ r.tapped t = true := by
    ext t
    rw [Finset.mem_filter, Finset.mem_filter, Finset.mem_range, List.mem_toFinset, hodd]
    constructor
    · rintro ⟨-, hx, ht⟩
      have hcount := (hodd t).mpr ht
      exact ⟨List.count_pos_iff.mp (by omega), ht, (h.tapped_eq (hlt ht)).trans hx⟩
    · rintro ⟨-, ht, hx⟩
      exact ⟨BitVec.lt_of_getLsbD ht, (h.tapped_eq (hlt ht)).symm.trans hx, ht⟩
  rw [State.fb, feedback_eq_card, hset, Register.newBit, foldr_xor_eq_decide_card]

/-- The shift of STATE is the source's (R123): bit p comes from bit p-1, so element i from element
i+1, and the new bit stands in bit 0, the last element. -/
theorem represents_stepRegister (h : s.Represents r) (hinv : s.LoadedInv) :
    (stepRegister s).Represents r.shift := by
  have hlen := h.length
  have hfb := h.fb_eq hinv
  obtain ⟨hpos, hmax, -, -⟩ := hinv
  refine ⟨h.loaded, hlen.trans (r.length_shift (hlen ▸ hpos)).symm, fun i hi => ?_, h.taps⟩
  rw [r.length_shift (hlen ▸ hpos), ← hlen] at hi
  show s.shifted.getLsbD ((s.len.toNat - 1) - i) = _
  rw [r.getElem_shift]
  split
  next hinner =>
    have hprev : (s.len.toNat - 1) - i - 1 = (s.len.toNat - 1) - (i + 1) := by omega
    rw [s.shifted_getLsbD_pos (by omega) (by omega) (by omega), hprev, ← h.bits (i + 1) hinner,
      State.arrayBit]
  next hlast =>
    have hzero : (s.len.toNat - 1) - i = 0 := by omega
    rw [hzero, s.shifted_getLsbD_zero hpos, hfb]

theorem represents_stepsRegister (h : s.Represents r) (hinv : s.LoadedInv) (m : Nat) :
    (stepsRegister m s).Represents (Register.shift^[m] r) := by
  induction m with
  | zero => exact h
  | succ m ih =>
    rw [stepsRegister_succ, Function.iterate_succ_apply']
    exact represents_stepRegister ih (loadedInv_stepsRegister hinv m)

/-- Each bit the register returns is the source's new bit at that step. -/
theorem bitOut_eq_newBit (h : s.Represents r) (hinv : s.LoadedInv) (m : Nat) :
    bitOut s.len.toNat s.taps s.state (m + 1) = (Register.shift^[m] r).newBit := by
  have hfb := (represents_stepsRegister h hinv m).fb_eq (loadedInv_stepsRegister hinv m)
  obtain ⟨_, _, _, hsteps⟩ := stepsRegister_eq m s
  rw [← hfb, hsteps]
  rfl

/-! ## RAND simulates the source's `rand` -/

/-- RAND's STATE is that of its STEPs (R145). -/
theorem randRegister_state_toNat (k : Nat) (s : State) :
    (randRegister k s).state.toNat = (stepsRegister k s).state.toNat :=
  (congrArg BitVec.toNat (randRegister_state k s)).trans (stepsRegister_state_toNat k s).symm

/-- The bits of RAND fold to the integer of the source's loop (R140). -/
theorem foldFrom_bitOut_eq_randFrom (h : s.Represents r) (hinv : s.LoadedInv) (k : Nat) :
    foldFrom 0 (bitOut s.len.toNat s.taps s.state) k = (Register.randFrom k r 0).1 := by
  induction k with
  | zero => rfl
  | succ k ih => rw [foldFrom, ih, randFrom_succ, randFrom_snd, bitOut_eq_newBit h hinv]

theorem randRegister_result_eq_randFrom (h : s.Represents r) (hinv : s.LoadedInv) {k : Nat}
    (hk : k ≤ s.params.kMax) :
    (randRegister k s).result.toNat = (Register.randFrom k r 0).1 := by
  rw [randRegister_result_toNat hk, foldFrom_bitOut_eq_randFrom h hinv]

/-- RAND leaves STATE, TAPS, LEN and LOADED as its STEPs do, so it leaves the source's register. -/
theorem represents_randRegister (h : s.Represents r) (hinv : s.LoadedInv) (k : Nat) :
    (randRegister k s).Represents (Register.randFrom k r 0).2 := by
  rw [randFrom_snd]
  have hstate := randRegister_state_toNat k s
  obtain ⟨_, _, _, hsteps⟩ := stepsRegister_eq k s
  exact (represents_stepsRegister h hinv k).congr (by rw [hsteps]; rfl) (by rw [hsteps]; rfl) hstate
    (by rw [hsteps]; rfl)

end represents

/-- Settles O38: each RAND is the source's loop, and the source's loop of `a + b` steps is the loop of
`a` and then that of `b`. -/
theorem randsConcatenate : Obligations.RandsConcatenate := by
  intro s r a b h hinv ha hb
  have hrep := represents_randRegister h hinv a
  have hinv' := loadedInv_randRegister hinv a
  refine ⟨randRegister a s, randRegister b (randRegister a s), exec_rand_loaded h.loaded ha,
    exec_rand_loaded hrep.loaded hb, rfl, rfl, ?_, ?_⟩
  · rw [randFrom_add_fst, randRegister_result_eq_randFrom h hinv ha,
      randRegister_result_eq_randFrom hrep hinv' hb]
  · rw [randFrom_add_snd]
    exact represents_randRegister hrep hinv' b

end Sys2Proof.Machine
end

section
/-! RAND on a loaded register (R141 to R149): its result bit by bit, the STEPs it stands for, and the
arguments it refuses. -/

namespace Sys2Proof.Machine

/-- The collected value as a sum, the first bit with the greatest weight (R141). -/
theorem foldFrom_zero_eq_sum (b : Nat → Bool) (k : Nat) :
    foldFrom 0 b k = ∑ i ∈ Finset.Icc 1 k, (b i).toNat * 2 ^ (k - i) := by
  induction k with
  | zero => rfl
  | succ k ih =>
    rw [foldFrom, ih, Finset.sum_Icc_succ_top k.succ_pos, Finset.mul_sum, Nat.sub_self,
      Nat.pow_zero, Nat.mul_one]
    congr 1
    refine Finset.sum_congr rfl fun i hi => ?_
    rw [Nat.succ_sub (Finset.mem_Icc.mp hi).2, Nat.pow_succ]
    ring

/-- Bit `j` of RESULT is the bit returned `j` steps before the last (R141). -/
theorem randRegister_getLsbD_result {s : State} {k : Nat} (hk : k ≤ s.params.kMax) (j : Nat) :
    (randRegister k s).result.getLsbD j =
      (decide (j < k) && bitOut s.len.toNat s.taps s.state (k - j)) := by
  rw [← BitVec.testBit_toNat, randRegister_result_toNat hk, foldFrom_testBit]

@[simp] theorem randRegister_params (k : Nat) (s : State) :
    (randRegister k s).params = s.params := rfl

theorem randRegister_getLsbD_state (k : Nat) (s : State) (p : Nat) :
    (randRegister k s).state.getLsbD p = (bitsAfter s.len.toNat s.taps s.state k).getLsbD p :=
  congrArg (BitVec.getLsbD · p) (randRegister_state k s)

/-- All that a RAND which ends with OK can be: the other outcomes carry an error code. -/
theorem exec_rand_ok {s t : State} {k : Int} (h : exec (.rand k) s = .next t) (hok : t.status = 0) :
    0 ≤ k ∧ k ≤ s.params.kMax ∧ t = randRegister k.toNat s := by
  rw [exec_rand, Host.Outcome.next.injEq, afterRand] at h
  subst h
  obtain ⟨-, e⟩ | ⟨-, -, e⟩ | ⟨-, hk, e⟩ := randChecked_cases k randRegister s
  · rw [e, finish_status] at hok
    exact absurd hok (by decide)
  · rw [e, finish_status] at hok
    exact absurd hok (by decide)
  · rw [← Bool.not_eq_true, badArgument_eq_true_iff] at hk
    exact ⟨by omega, by omega, e⟩

/-- Settles O34: both sides are `bitsAfter` and the fold of `bitOut`. -/
theorem randEqualsSuccessiveSteps : Obligations.RandEqualsSuccessiveSteps := by
  intro s k hloaded hk
  refine ⟨randRegister k s, stepsRegister k s, exec_rand_loaded hloaded hk,
    runSteps_loaded k hloaded, randRegister_state_toNat k s, rfl, ?_, ?_⟩
  · rw [returnedBits_loaded k hloaded, List.length_map, List.length_range]
  · rw [returnedBits_loaded k hloaded, foldBits_map_range, randRegister_result_toNat hk]

/-- Settles O36: the sum and its bits, with each `bitOut` read as a returned bit. -/
theorem randPutsTheFirstBitHighest : Obligations.RandPutsTheFirstBitHighest := by
  intro s k hloaded hk
  refine ⟨randRegister k s, exec_rand_loaded hloaded hk, ?_, fun i hi hik => ?_⟩
  · rw [randRegister_result_toNat hk, foldFrom_zero_eq_sum]
    refine Finset.sum_congr rfl fun i hi => ?_
    rw [returnedBit_loaded (Finset.mem_Icc.mp hi).1 hloaded]
  · have hlt : k - i < k := by omega
    rw [randRegister_getLsbD_result hk, returnedBit_loaded hi hloaded, Nat.sub_sub_self hik]
    simp [hlt]

/-- Settles O37: success is `randRegister` with `k` in range, whose RESULT folds `k` bits. -/
theorem randResultFitsItsBits : Obligations.RandResultFitsItsBits := by
  intro s t k h hok
  obtain ⟨hpos, hmax, rfl⟩ := exec_rand_ok h hok
  have hk : k.toNat ≤ s.params.kMax := by omega
  refine ⟨hpos, hmax, ?_, fun j hj => ?_⟩
  · have hlt := foldFrom_lt (bitOut s.len.toNat s.taps s.state) (Nat.two_pow_pos 0) k.toNat
    rwa [Nat.zero_add, ← randRegister_result_toNat hk] at hlt
  · rw [randRegister_getLsbD_result hk]
    simp [Nat.not_lt.mpr hj]

/-- For `k` up to LEN both sides have, at bit `p < k`, the bit returned `p` steps before the last
(R148). -/
theorem randRegister_result_eq_low_bits {s : State} {k : Nat} (hinv : s.LoadedInv)
    (hlen : k ≤ s.len.toNat) (hk : k ≤ s.params.kMax) :
    (randRegister k s).result.toNat =
      ((randRegister k s).state &&& ones (randRegister k s).params.nMax k).toNat := by
  obtain ⟨-, hmax, -, -⟩ := hinv
  apply Nat.eq_of_testBit_eq
  intro p
  rw [BitVec.testBit_toNat, randRegister_getLsbD_result hk, BitVec.testBit_toNat,
    BitVec.getLsbD_and, getLsbD_ones, randRegister_getLsbD_state, randRegister_params]
  by_cases hp : p < k
  · have hpw : p < s.params.nMax := by omega
    rw [getLsbD_bitsAfter _ _ _ _ (hp.trans_le hlen) hpw]
    simp [hp, hpw]
  · simp [hp]

/-- A register of length 1 whose one bit is 1 and is tapped: every step returns 1 and keeps STATE. -/
def constantOne : State :=
  { State.resetOf Params.reference with state := 1, taps := 1, len := 1, loaded := true }

/-- R148 fails past LEN: two steps of a register of length 1 return 3, and STATE has one bit. -/
theorem constantOne_rand_two : (randRegister 2 constantOne).result.toNat = 3 ∧
    ((randRegister 2 constantOne).state &&& ones (randRegister 2 constantOne).params.nMax 2).toNat
      = 1 := by decide

/-- Settles O39: the low bits for `k ≤ LEN`, and `constantOne` with `k = 2` past LEN. -/
theorem randResultIsTheLowBitsOfState : Obligations.RandResultIsTheLowBitsOfState := by
  constructor
  · intro s k hloaded hinv _ hlen hk
    exact ⟨randRegister k s, exec_rand_loaded hloaded hk, rfl,
      randRegister_result_eq_low_bits hinv hlen hk⟩
  · obtain ⟨hresult, hstate⟩ := constantOne_rand_two
    refine ⟨constantOne, randRegister 2 constantOne, 2, rfl, by decide, by decide,
      exec_rand_loaded rfl (by decide), rfl, ?_⟩
    rw [hresult, hstate]
    decide

/-- Settles O33: on a loaded register the check of the argument decides. -/
theorem randRefusesABadArgument : Obligations.RandRefusesABadArgument := by
  intro s k hloaded hk
  have hbad : badArgument s.params k = true := (badArgument_eq_true_iff s.params k).mpr hk
  have h : randChecked k randRegister s = finish .invalidArgument s := by
    simpa [hloaded, hbad] using randChecked_cases k randRegister s
  rw [exec_rand, afterRand, h]
  rfl

/-- RAND with no step clears RESULT and nothing else. -/
theorem randRegister_zero (s : State) :
    randRegister 0 s = { s with result := 0, status := 0, done := true } := rfl

/-- One step of RAND's loop is STEP's. -/
theorem randRegister_one_result_toNat (s : State) :
    (randRegister 1 s).result.toNat = (stepRegister s).result.toNat := by
  rw [randRegister_result_toNat s.params.kMax_pos, stepRegister_result_toNat]
  exact Nat.zero_add _

/-- Settles O40, from the two small runs of RAND's loop. -/
theorem smallRands : Obligations.SmallRands := by
  intro s hloaded
  refine ⟨?_, randRegister 1 s, stepRegister s, exec_rand_loaded hloaded s.params.kMax_pos,
    exec_step_loaded hloaded, rfl, randRegister_one_result_toNat s, rfl⟩
  rw [← randRegister_zero]
  exact exec_rand_loaded hloaded (Nat.zero_le _)

end Sys2Proof.Machine
end

section
/-! The status codes (R160 to R166): how the step at which a word is accepted ends, the code each
command ends with in the order of its checks, and that an error writes STATUS alone. -/

namespace Sys2Proof.Machine

/-! ## The step that accepts a word -/

section accepted
variable {s t u : State} {i : Instr}

theorem step_illegal (ha : s.accepts = true) (hd : decode s.ports.cmd = none) :
    step s = .next (finish .illegalCommand s).advance :=
  edge_of_registers (edgeRegisters_illegal ha hd)

theorem step_command (ha : s.accepts = true) (hd : decode s.ports.cmd = some i)
    (he : exec i s = .next u) : step s = .next u.advance :=
  edge_of_registers ((edgeRegisters_command ha hd).trans he)

/-- The host's next port values do not reach STATUS. -/
theorem status_eq_of_step_advance (hs : step s = .next t) (hu : step s = .next u.advance) :
    t.status = u.status := by
  rw [hu, Host.Outcome.next.injEq] at hs
  rw [← hs, advance_status]

end accepted

/-! ## The code of each command -/

/-- The check of R102 and R103 by mask. -/
theorem outsideLength_eq_true_iff_mask {w : Nat} (len : Nat) (v : BitVec w) :
    outsideLength len v = true ↔ v &&& ~~~ones w len ≠ 0 := bne_iff_ne

@[simp] theorem loadRegister_status (n : Nat) (s : State) : (loadRegister n s).status = 0 := rfl
@[simp] theorem randRegister_status (k : Nat) (s : State) : (randRegister k s).status = 0 := rfl

/-- LOAD's checks are of the length, then of the fill, then of the taps. -/
theorem afterLoad_status (n : Nat) (s : State) : (afterLoad n s).status =
    if n = 0 ∨ s.params.nMax < n then 4
    else if s.ports.fill &&& ~~~ones s.params.nMax n ≠ 0 then 1
    else if s.ports.taps &&& ~~~ones s.params.nMax n ≠ 0 then 2
    else 0 := by
  simp only [← badLength_eq_true_iff, ← outsideLength_eq_true_iff_mask]
  obtain ⟨hlen, h⟩ | ⟨hlen, hfill, h⟩ | ⟨hlen, hfill, htaps, h⟩ | ⟨hlen, hfill, htaps, h⟩ :=
    afterLoad_cases n s
  · simp [h, hlen, StatusName.code]
  · simp [h, hlen, hfill, StatusName.code]
  · simp [h, hlen, hfill, htaps, StatusName.code]
  · simp [h, hlen, hfill, htaps]

theorem afterStep_status (s : State) :
    (afterStep s).status = if s.loaded = false then 5 else 0 := by
  cases hl : s.loaded with
  | false => simp [afterStep_unloaded hl, StatusName.code]
  | true => simp [afterStep_loaded hl]

/-- RAND looks at LOADED first, so the argument counts on a loaded register only. -/
theorem afterRand_status (k : Int) (s : State) : (afterRand k s).status =
    if s.loaded = false then 5
    else if k < 0 ∨ (s.params.kMax : Int) < k then 3
    else 0 := by
  simp only [← badArgument_eq_true_iff, afterRand]
  obtain ⟨hl, h⟩ | ⟨hl, hk, h⟩ | ⟨hl, hk, h⟩ := randChecked_cases k randRegister s
  · simp [h, hl, StatusName.code]
  · simp [h, hl, hk, StatusName.code]
  · simp [h, hl, hk]

/-! ## An error writes STATUS alone -/

theorem finish_eq_update (c : StatusName) (s : State) :
    finish c s = { s with status := (finish c s).status, done := true } := rfl

/-- A decoded command completes, and with any other code than OK it has written nothing else: the three
effects that write another register end with OK. -/
theorem exec_error_writes_status_alone {i : Instr} {s t : State} (h : exec i s = .next t) :
    t.done = true ∧ (t.status ≠ 0 → t = { s with status := t.status, done := true }) := by
  obtain ⟨c, -, -, rfl⟩ | ⟨n, -, -, -, -, rfl⟩ | ⟨-, -, rfl⟩ | ⟨k, -, -, -, rfl⟩ := exec_cases h
  · exact ⟨rfl, fun _ => finish_eq_update c s⟩
  · exact ⟨rfl, fun hne => absurd (loadRegister_status n s) hne⟩
  · exact ⟨rfl, fun hne => absurd (stepRegister_status s) hne⟩
  · exact ⟨rfl, fun hne => absurd (randRegister_status k.toNat s) hne⟩

/-! ## The obligations -/

/-- Settles O7: the word is decoded before anything else is checked. -/
theorem illegalWordRaisesIllegalCommand : Obligations.IllegalWordRaisesIllegalCommand :=
  fun _ ha hd => step_illegal ha hd

/-- Settles O24: both commands check LOADED first. -/
theorem unloadedStepAndRandAreRefused : Obligations.UnloadedStepAndRandAreRefused := by
  intro s hl
  constructor
  · rw [exec_step, afterStep_unloaded hl]
    rfl
  · intro k
    have h : randChecked k randRegister s = finish .notLoaded s := by
      simpa [hl] using randChecked_cases k randRegister s
    rw [exec_rand, afterRand, h]
    rfl

/-- Settles O41: an illegal word ends in `finish`, and so does every decoded command that fails. -/
theorem anErrorWritesStatusAlone : Obligations.AnErrorWritesStatusAlone := by
  intro s ha
  cases hd : decode s.ports.cmd with
  | none => exact ⟨finish .illegalCommand s, step_illegal ha hd, rfl, fun _ => finish_eq_update _ s⟩
  | some i =>
    obtain ⟨t, ht⟩ := exec_next i s
    exact ⟨t, step_command ha hd ht, exec_error_writes_status_alone ht⟩

/-- Settles O42: the code of the step is that of the command the word decodes to. -/
theorem errorsAreReportedInOrder : Obligations.ErrorsAreReportedInOrder := by
  intro s t ha hs
  refine ⟨fun hd => ?_, fun n hd => ?_, fun hd => ?_, fun k hd => ?_⟩
  · exact status_eq_of_step_advance hs (step_illegal ha hd)
  · rw [status_eq_of_step_advance hs (step_command ha hd (exec_load n s)), afterLoad_status]
  · rw [status_eq_of_step_advance hs (step_command ha hd (exec_step s)), afterStep_status]
  · rw [status_eq_of_step_advance hs (step_command ha hd (exec_rand k s)), afterRand_status]

end Sys2Proof.Machine
end

section
/-! The reset edge and the running engine (spec/70_reset_and_hazards.md): reset comes before all else,
and at `rst` = 0 a running RAND makes its next step, whatever is offered. -/

namespace Sys2Proof.Machine

/-! ## The two edges that accept nothing -/

section edges
variable {run : Instr → State → Host.Outcome State Fault Refusal} {s : State}

theorem edge_rst (h : s.ports.rst = true) : edge run s = .next (resetRegisters s).advance :=
  edge_of_registers (edgeRegisters_rst h)

theorem edge_busy (h : s.ports.rst = false) (hb : s.busy = true) :
    edge run s = .next (engineContinue s).advance :=
  edge_of_registers (edgeRegisters_busy h hb)

end edges

/-- `cmd_ready` is low in reset (R41). -/
theorem cmdReady_of_rst {s : State} (h : s.ports.rst = true) : s.cmdReady = false := by
  simp [State.cmdReady, h]

/-- Nothing is accepted where `cmd_ready` is low (R40). -/
theorem accepts_of_not_cmdReady {s : State} (h : s.cmdReady = false) : s.accepts = false := by
  simp [State.accepts, h]

/-! ## The running engine -/

/-- All that the running engine does at an edge (R150): with one step left it makes that step and
completes, otherwise it makes a step and goes on. -/
theorem engineContinue_cases (s : State) :
    (s.cnt = 1 ∧ engineContinue s =
      finish .ok { s with
        state := s.shifted, acc := collectBit s.acc s.fb, cnt := 0,
        result := collectBit s.acc s.fb, busy := false }) ∨
    (s.cnt ≠ 1 ∧ engineContinue s = { s with
      state := s.shifted, acc := collectBit s.acc s.fb, cnt := s.cnt - 1,
      busy := true, done := false }) := by
  obtain ⟨h, e⟩ | ⟨h, e⟩ := engineSettle_cases (engineStep s s.acc (s.cnt - 1))
  · have hcnt : s.cnt - 1 = 0 := h
    exact .inl ⟨sub_eq_zero.mp hcnt, by rw [engineContinue, e, hcnt]; rfl⟩
  · exact .inr ⟨fun hcnt => h (sub_eq_zero.mpr hcnt), e⟩

/-! ## The obligations -/

/-- Settles O12: a reset edge clears the registers; at any other edge the engine continues, for the
step and for the reference engine alike. -/
theorem onlyResetStopsARunningRand : Obligations.OnlyResetStopsARunningRand := by
  intro s hb
  cases hr : s.ports.rst with
  | true => exact ⟨_, edge_rst hr, edge_rst hr, by simp, by simp⟩
  | false =>
    refine ⟨_, edge_busy hr hb, edge_busy hr hb, by simp, fun _ => ?_⟩
    obtain ⟨hcnt, e⟩ | ⟨-, e⟩ := engineContinue_cases s <;> rw [e]
    · exact .inr (by simp [hcnt, StatusName.code])
    · exact .inl (by simp)

/-- Settles O11: the registers are those of `resetRegisters`, which `advance` keeps. -/
theorem resetEdgeClearsEveryRegister : Obligations.ResetEdgeClearsEveryRegister := by
  intro s hr
  have hready := cmdReady_of_rst hr
  exact ⟨hready, accepts_of_not_cmdReady hready, _, edge_rst hr, edge_rst hr, by simp⟩

/-- Settles O13: `State.reset` is `State.resetOf` at the block's own parameters. -/
theorem resetStateIsAsSpecified : Obligations.ResetStateIsAsSpecified := by
  intro s h
  obtain ⟨p, rfl⟩ : ∃ p, s = State.resetOf p := h.elim (fun e => ⟨_, e⟩) id
  exact ⟨rfl, rfl, rfl, rfl, rfl, rfl, rfl, rfl, rfl, rfl⟩

end Sys2Proof.Machine
end

section
/-! The command word and its fields (R70 to R79): decoding inverts encoding, the words no command
has, and the port values the assembler emits for a command. -/

namespace Sys2Proof

/-! ## Words and halves -/

/-- A word is built of two halves exactly when they are its halves (R70). -/
theorem append_eq_iff (a b : Half) (w : CmdWord) :
    a ++ b = w ↔ fieldImm16 w = a ∧ fieldLow w = b := by
  constructor
  · rintro rfl
    exact ⟨fieldImm16_append a b, fieldLow_append a b⟩
  · rintro ⟨rfl, rfl⟩
    exact fieldImm16_append_fieldLow w

theorem toNat_ofNat_half {n : Nat} (h : n ≤ 65535) : (BitVec.ofNat 16 n : Half).toNat = n := by
  rw [BitVec.toNat_ofNat, Nat.mod_eq_of_lt (by omega)]

/-- The word on the port is what it is as a table word of 32 bits (R77). -/
theorem ofNat_toNat_mod_two_pow (w : CmdWord) : BitVec.ofNat 32 (w.toNat % 2 ^ 32) = w := by
  rw [Nat.mod_eq_of_lt w.isLt, BitVec.ofNat_toNat, BitVec.setWidth_eq]

/-- An unsigned half as a number in its range (R72). -/
theorem toNat_eq_iff_ofNat (v : Half) (n : Nat) :
    v.toNat = n ↔ n ≤ 65535 ∧ v = BitVec.ofNat 16 n := by
  have hv : v.toNat < 2 ^ 16 := v.isLt
  rw [← BitVec.toNat_inj, BitVec.toNat_ofNat]
  omega

/-- A two's complement half as a number in its range (R73). -/
theorem toInt_eq_iff_ofInt (v : Half) (k : Int) :
    v.toInt = k ↔ (-32768 ≤ k ∧ k ≤ 32767) ∧ v = BitVec.ofInt 16 k := by
  have hlo : -2 ^ 15 ≤ v.toInt := BitVec.le_toInt v
  have hhi : v.toInt < 2 ^ 15 := BitVec.toInt_lt
  rw [← BitVec.toInt_inj, BitVec.toInt_ofInt, Int.bmod_def]
  omega

/-! ## The round trip -/

theorem load_wf_iff (n : Nat) : (Instr.load n).WF ↔ n ≤ 65535 := decide_eq_true_iff

theorem rand_wf_iff (k : Int) : (Instr.rand k).WF ↔ -32768 ≤ k ∧ k ≤ 32767 := by
  rw [Instr.WF, Instr.wellFormed, Bool.and_eq_true, decide_eq_true_iff, decide_eq_true_iff]

/-- Each row of R76 against its row of R79. -/
theorem decode_eq_some_iff (w : CmdWord) (i : Instr) :
    decode w = some i ↔ i.WF ∧ encode i = w := by
  cases i with
  | load n =>
    rw [decode_eq_load_iff, toNat_eq_iff_ofNat, load_wf_iff, encode, append_eq_iff]
    tauto
  | step =>
    rw [decode_eq_step_iff, eq_comm]
    exact (and_iff_right rfl).symm
  | rand k =>
    rw [decode_eq_rand_iff, toInt_eq_iff_ofInt, rand_wf_iff, encode, append_eq_iff]
    tauto

theorem decode_encode {i : Instr} (h : i.WF) : decode (encode i) = some i :=
  (decode_eq_some_iff (encode i) i).mpr ⟨h, rfl⟩

theorem decodeTableWord_toNat (w : CmdWord) : decodeTableWord 32 w.toNat = decode w := by
  rw [decodeTableWord, if_pos le_rfl, ofNat_toNat_mod_two_pow]

/-- Settles O2, from the rows of the decoder against those of the encoder. -/
theorem decodeAndEncodeAgree : Obligations.DecodeAndEncodeAgree :=
  ⟨decode_eq_some_iff, fun i h => (decodeTableWord_toNat (encode i)).trans (decode_encode h)⟩

/-! ## The words no command has -/

/-- The low half is RSV above OP (R70). -/
theorem fieldRsv_append_fieldOp (w : CmdWord) : fieldRsv w ++ fieldOp w = fieldLow w := by
  apply BitVec.eq_of_getLsbD_eq
  intro p hp
  rw [BitVec.getLsbD_append, fieldRsv, fieldOp, fieldLow]
  simp only [BitVec.getLsbD_extractLsb']
  by_cases h : p < 2
  · simp [h, hp]
  · have hback : 2 + (p - 2) = p := by omega
    have hrsv : p - 2 < 14 := by omega
    simp [h, hp, hback, hrsv]

/-- The low half of a word that carries a command: RSV is 0 (R70, R71). -/
theorem fieldLow_eq_iff (w : CmdWord) (op : BitVec 2) :
    fieldLow w = 0#14 ++ op ↔ fieldRsv w = 0#14 ∧ fieldOp w = op := by
  constructor
  · intro h
    have hrsv : fieldRsv w = (fieldLow w).extractLsb' 2 14 := by
      rw [← Laws.fieldRsv_append (fieldImm16 w), fieldImm16_append_fieldLow]
    have hop : fieldOp w = (fieldLow w).extractLsb' 0 2 := by
      rw [← Laws.fieldOp_append (fieldImm16 w), fieldImm16_append_fieldLow]
    have hparts : ∀ op : BitVec 2, (0#14 ++ op : Half).extractLsb' 2 14 = 0#14 ∧
        (0#14 ++ op : Half).extractLsb' 0 2 = op := by decide
    rw [hrsv, hop, h]
    exact hparts op
  · rintro ⟨hrsv, rfl⟩
    rw [← fieldRsv_append_fieldOp, hrsv]

theorem decode_eq_none_iff_constants (w : CmdWord) :
    decode w = none ↔ fieldLow w ≠ 0x0001#16 ∧ w ≠ 0x00000002#32 ∧ fieldLow w ≠ 0x0003#16 := by
  obtain ⟨h, hd⟩ | ⟨h, hd⟩ | ⟨h, hd⟩ | ⟨h1, h2, h3, hd⟩ := decode_cases w
  · simp [hd, h]
  · exact iff_of_false (by simp [hd]) fun hno => hno.2.1 h
  · simp [hd, h]
  · simp [hd, h1, h2, h3]

/-- R76's constants, read field by field. -/
theorem decode_eq_none_iff_fields (w : CmdWord) :
    decode w = none ↔ fieldOp w = 0#2 ∨ fieldRsv w ≠ 0#14 ∨
      (fieldOp w = 2#2 ∧ fieldImm16 w ≠ 0#16) := by
  have hload : fieldLow w = 0x0001#16 ↔ fieldRsv w = 0#14 ∧ fieldOp w = 1#2 := fieldLow_eq_iff w 1#2
  have hrand : fieldLow w = 0x0003#16 ↔ fieldRsv w = 0#14 ∧ fieldOp w = 3#2 := fieldLow_eq_iff w 3#2
  have hstep : w = 0x00000002#32 ↔ fieldImm16 w = 0#16 ∧ fieldRsv w = 0#14 ∧ fieldOp w = 2#2 := by
    rw [← fieldLow_eq_iff w 2#2]
    exact eq_comm.trans (append_eq_iff 0#16 0x0002#16 w)
  have hops : ∀ op : BitVec 2, op = 0#2 ∨ op = 1#2 ∨ op = 2#2 ∨ op = 3#2 := by decide
  rw [decode_eq_none_iff_constants, Ne, Ne, Ne, hload, hrand, hstep]
  obtain h | h | h | h := hops (fieldOp w)
  · simp [h]
  · simp [h]
  · simp [h, imp_iff_not_or, or_comm]
  · simp [h]

/-- Settles O3: the fields are those the decoder's constants are made of. -/
theorem illegalWordsAreExactlyTheReservedOnes : Obligations.IllegalWordsAreExactlyTheReservedOnes :=
  decode_eq_none_iff_fields

/-- Settles O1: each word decodes by evaluation. -/
theorem specWordsDecode : Obligations.SpecWordsDecode := by
  unfold Obligations.SpecWordsDecode
  decide

end Sys2Proof

namespace Sys2Proof.Machine

/-! ## What the assembler emits -/

theorem fitsPort_natCast {n v : Nat} : fitsPort n v = true ↔ v < 2 ^ n := by
  rw [fitsPort, Bool.and_eq_true, decide_eq_true_iff, decide_eq_true_iff]
  exact_mod_cast and_iff_right (Int.natCast_nonneg v)

theorem assemble_load (p : Params) {len fill taps : Nat} (hlen : len ≤ 65535)
    (hfill : fill < 2 ^ p.nMax) (htaps : taps < 2 ^ p.nMax) :
    assemble p (.load len fill taps) =
      .ok [issuePorts (.load len) (BitVec.ofNat p.nMax fill) (BitVec.ofNat p.nMax taps)] := by
  rw [assemble, if_pos ⟨Int.natCast_nonneg len, by exact_mod_cast hlen, fitsPort_natCast.mpr hfill,
    fitsPort_natCast.mpr htaps⟩, BitVec.ofInt_natCast, BitVec.ofInt_natCast, Int.toNat_natCast]

theorem assemble_load_refuses (p : Params) {len : Int} (h : len < 0 ∨ 65535 < len)
    (fill taps : Int) : assemble p (.load len fill taps) = .error .cannotEncode :=
  if_neg fun ⟨hlo, hhi, _⟩ => by omega

theorem assemble_rand (p : Params) {k : Int} (h : (Instr.rand k).WF) :
    assemble p (.rand k) = .ok [issuePorts (.rand k) 0 0] :=
  if_pos h

theorem assemble_rand_refuses (p : Params) {k : Int} (h : ¬(Instr.rand k).WF) :
    assemble p (.rand k) = .error .cannotEncode :=
  if_neg h

/-- A word as a number: its upper half times 2^16, and its lower half. -/
theorem toNat_append_half (a b : Half) : (a ++ b : CmdWord).toNat = a.toNat * 65536 + b.toNat := by
  rw [BitVec.toNat_append, ← Nat.shiftLeft_add_eq_or_of_lt b.isLt, Nat.shiftLeft_eq]

theorem encode_load_toNat {len : Nat} (h : len ≤ 65535) :
    (encode (.load len)).toNat = len * 65536 + 1 := by
  rw [encode, toNat_append_half, toNat_ofNat_half h]
  rfl

theorem encode_rand_toNat (k : Int) :
    ((encode (.rand k)).toNat : Int) = k % 65536 * 65536 + 3 := by
  rw [encode, toNat_append_half, BitVec.toNat_ofInt]
  have : (0x0003#16).toNat = 3 := rfl
  omega

/-- Settles O58: each emitted word is the encoding of its command, which decodes back. -/
theorem assembledCommandsDecode : Obligations.AssembledCommandsDecode := by
  intro p
  refine ⟨fun len fill taps hlen hfill htaps => ?_, ?_, fun k hlo hhi => ?_, fun k hk => ?_,
    fun len fill taps hlen => assemble_load_refuses p hlen fill taps⟩
  · have hport {v : Nat} (hv : v < 2 ^ p.nMax) : (BitVec.ofNat p.nMax v).toNat = v := by
      rw [BitVec.toNat_ofNat, Nat.mod_eq_of_lt hv]
    exact ⟨_, assemble_load p hlen hfill htaps, rfl, rfl,
      decode_encode ((load_wf_iff len).mpr hlen), hport hfill, hport htaps, encode_load_toNat hlen⟩
  · exact ⟨_, rfl, rfl, decode_encode rfl, rfl⟩
  · have hwf := (rand_wf_iff k).mpr ⟨hlo, hhi⟩
    exact ⟨_, assemble_rand p hwf, rfl, decode_encode hwf, encode_rand_toNat k⟩
  · exact assemble_rand_refuses p fun hwf => by
      obtain ⟨hlo, hhi⟩ := (rand_wf_iff k).mp hwf
      omega

end Sys2Proof.Machine
end

section
/-! LOAD that succeeds (R104), and what each command reads and leaves alone (R26, R40, R75). -/

namespace Sys2Proof.Machine

/-! ## LOAD -/

section load
variable {s : State} {n : Nat}

theorem exec_load_good (hlen : badLength s.params n = false)
    (hfill : outsideLength n s.ports.fill = false) (htaps : outsideLength n s.ports.taps = false) :
    exec (.load n) s = .next (loadRegister n s) := by
  have h : afterLoad n s = loadRegister n s := by
    simpa [hlen, hfill, htaps] using afterLoad_cases n s
  rw [exec_load, h]

/-- LEN holds every length a LOAD accepts (R21). -/
theorem toNat_ofNat_len {p : Params} (hmax : n ≤ p.nMax) :
    (BitVec.ofNat 16 n : Half).toNat = n :=
  toNat_ofNat_half (hmax.trans p.nMax_le)

theorem outsideLength_eq_false_of_bits {w : Nat} {v : BitVec w}
    (h : ∀ p, n ≤ p → v.getLsbD p = false) : outsideLength n v = false :=
  (outsideLength_eq_false_iff n v).mpr ((within_iff n v).mpr h)

end load

/-- Settles O20: the three checks of R104 pass. -/
theorem loadConstructsTheRegister : Obligations.LoadConstructsTheRegister :=
  fun _ _ hpos hmax hfill htaps =>
    ⟨exec_load_good (badLength_eq_false hpos hmax) (outsideLength_eq_false_of_bits hfill)
      (outsideLength_eq_false_of_bits htaps), toNat_ofNat_len hmax⟩

/-! ## RAND's frame -/

/-- A step forces the bits at and above LEN to 0 (R123), whatever they were. -/
theorem within_bitsAfter_of_pos {w len m : Nat} (taps x : BitVec w) (hm : 1 ≤ m) :
    Within len (bitsAfter len taps x m) := by
  obtain ⟨n, rfl⟩ := Nat.exists_eq_add_of_le' hm
  rw [bitsAfter_succ]
  exact within_shiftIn _ _ _

/-- Settles O35: the writes of `randRegister`. -/
theorem randWritesOnlyItsOwnRegisters : Obligations.RandWritesOnlyItsOwnRegisters := by
  intro s k hloaded hk
  refine ⟨_, _, exec_rand_loaded hloaded hk, fun p hp hpos => ?_⟩
  rw [collect_fst]
  exact (within_iff _ _).mp (within_bitsAfter_of_pos s.taps s.state hpos) p hp

/-! ## What a command reads -/

/-- Neither STEP nor RAND reads a port or the script (R75). -/
theorem afterStep_registers (s : State) : (afterStep s).registers = afterStep s.registers := by
  rw [afterStep, apply_ite State.registers]
  rfl

theorem afterRand_registers (k : Int) (s : State) :
    (afterRand k s).registers = afterRand k s.registers := by
  rw [afterRand, randChecked, apply_ite State.registers, apply_ite State.registers]
  rfl

/-- Settles O44: both states have the same registers, which are all that STEP and RAND read. -/
theorem stepAndRandIgnoreTheOperandPorts : Obligations.StepAndRandIgnoreTheOperandPorts := by
  intro s i f g hi
  cases i with
  | load n => exact absurd rfl (hi n)
  | step =>
    refine ⟨_, _, exec_step s, exec_step _, ?_⟩
    rw [afterStep_registers, afterStep_registers]
    rfl
  | rand k =>
    refine ⟨_, _, exec_rand k s, exec_rand k _, ?_⟩
    rw [afterRand_registers, afterRand_registers]
    rfl

/-- All of the state that a command's architectural effect reads: the architectural registers and
the operand ports (R40). -/
def State.commandView (s : State) : State :=
  { s.architectural with
    ports := { Ports.quiet s.params.nMax with fill := s.ports.fill, taps := s.ports.taps } }

theorem afterLoad_architectural (n : Nat) (s : State) :
    (afterLoad n s).architectural = (afterLoad n s.commandView).architectural := by
  simp only [afterLoad, apply_ite State.architectural]
  rfl

theorem afterStep_architectural (s : State) :
    (afterStep s).architectural = (afterStep s.architectural).architectural := by
  simp only [afterStep, apply_ite State.architectural]
  rfl

theorem afterRand_architectural (k : Int) (s : State) :
    (afterRand k s).architectural = (afterRand k s.architectural).architectural := by
  simp only [afterRand, randChecked, apply_ite State.architectural]
  rfl

/-- STEP and RAND take the architectural registers to architectural registers. -/
theorem exec_architectural_congr {i : Instr} {s u t v : State} (hi : ∀ n, i ≠ .load n)
    (h : s.architectural = u.architectural) (hs : exec i s = .next t) (hu : exec i u = .next v) :
    t.architectural = v.architectural := by
  cases i with
  | load n => exact absurd rfl (hi n)
  | step =>
    rw [exec_step, Host.Outcome.next.injEq] at hs hu
    rw [← hs, ← hu, afterStep_architectural, h, ← afterStep_architectural]
  | rand k =>
    rw [exec_rand, Host.Outcome.next.injEq] at hs hu
    rw [← hs, ← hu, afterRand_architectural, h, ← afterRand_architectural]

/-- Settles O45: the two states differ in nothing that the command's effect reads. -/
theorem effectDependsOnOperandsAndRegistersOnly :
    Obligations.EffectDependsOnOperandsAndRegistersOnly := by
  intro s i busy done cnt acc q script hfill htaps
  obtain ⟨t, ht⟩ := exec_next i s
  obtain ⟨u, hu⟩ := exec_next i
    { s with
      busy := busy, done := done, cnt := cnt, acc := acc, ports := q, script := script }
  refine ⟨t, u, ht, hu, ?_⟩
  by_cases hload : ∃ n, i = .load n
  · obtain ⟨n, rfl⟩ := hload
    rw [exec_load, Host.Outcome.next.injEq] at ht hu
    rw [← ht, ← hu, afterLoad_architectural, afterLoad_architectural n s]
    simp only [State.commandView, hfill, htaps]
    rfl
  · exact exec_architectural_congr (not_exists.mp hload) (by rfl) hu ht

/-! ## The frames of the commands -/

/-- Settles O46, by what a command can do: an error, or the writes of LOAD, STEP or RAND. -/
theorem commandFrames : Obligations.CommandFrames := by
  intro i s t h
  obtain ⟨c, -, -, rfl⟩ | ⟨n, rfl, -, -, -, rfl⟩ | ⟨rfl, -, rfl⟩ | ⟨k, rfl, -, -, rfl⟩ :=
    exec_cases h
  · exact ⟨rfl, rfl, _, _, _, _, _, _, _, _, _, rfl, fun _ => ⟨rfl, rfl, rfl⟩, fun _ => ⟨rfl, rfl⟩⟩
  · exact ⟨rfl, rfl, _, _, _, _, _, _, _, _, _, rfl, fun hi => absurd rfl (hi n),
      fun _ => ⟨rfl, rfl⟩⟩
  · exact ⟨rfl, rfl, _, _, _, _, _, _, _, _, _, rfl, fun _ => ⟨rfl, rfl, rfl⟩, fun _ => ⟨rfl, rfl⟩⟩
  · exact ⟨rfl, rfl, _, _, _, _, _, _, _, _, _, rfl, fun _ => ⟨rfl, rfl, rfl⟩,
      fun hi => absurd rfl (hi k)⟩

theorem StatusName.code_ne_seven (c : StatusName) : c.code ≠ 7 := by
  cases c <;> decide

/-- No command writes the code 7 (R160). -/
theorem exec_status_ne_seven {i : Instr} {s t : State} (h : exec i s = .next t) : t.status ≠ 7 := by
  obtain ⟨c, -, -, rfl⟩ | ⟨n, -, -, -, -, rfl⟩ | ⟨-, -, rfl⟩ | ⟨k, -, -, -, rfl⟩ := exec_cases h
  · exact c.code_ne_seven
  · exact StatusName.ok.code_ne_seven
  · exact StatusName.ok.code_ne_seven
  · exact StatusName.ok.code_ne_seven

/-- Settles O43: `exec` and both kinds of edge always answer a next state. -/
theorem everyCommandCompletes : Obligations.EveryCommandCompletes := by
  refine ⟨fun i s => ?_, fun s => ⟨?_, ?_⟩⟩
  · obtain ⟨t, ht⟩ := exec_next i s
    exact ⟨t, ht, (exec_error_writes_status_alone ht).1, exec_status_ne_seven ht⟩
  · obtain ⟨t, -, ht⟩ := step_next s
    exact ⟨t.advance, ht⟩
  · obtain ⟨t, -, ht⟩ := clockEdge_next s
    exact ⟨t.advance, ht⟩

end Sys2Proof.Machine
end

section
/-! One edge of the clock: what is sampled, what the outputs show, and a run of driven commands. -/

namespace Sys2Proof.Machine

/-! ## The step that accepts an offered word -/

theorem accepts_offer (s : State) (w : CmdWord) : (s.offer w).accepts = true :=
  (accepts_iff (s.offer w)).mpr ⟨rfl, rfl, rfl⟩

theorem withFetchWord_toNat (s : State) (w : CmdWord) : s.withFetchWord 32 w.toNat = s.offer w := by
  rw [State.withFetchWord, State.offerTableWord, ofNat_toNat_mod_two_pow]

/-- Settles O5: an accepted word runs its command, and an offered word is accepted. -/
theorem stepRunsTheDecodedCommand : Obligations.StepRunsTheDecodedCommand := by
  refine fun s i => ⟨fun ha hd => ?_, fun w hd => ?_⟩
  · obtain ⟨t, ht⟩ := exec_next i s
    exact ⟨t, ht, step_command ha hd ht⟩
  · obtain ⟨t, ht⟩ := exec_next i (s.offer w)
    rw [withFetchWord_toNat]
    exact ⟨t, ht, step_command (accepts_offer s w) hd ht⟩

theorem advance_nil {s : State} (h : s.script = []) :
    s.advance = { s with ports := { s.ports with rst := false, cmdValid := false } } := by
  obtain ⟨-, e⟩ | ⟨p, rest, hs, -⟩ := s.advance_cases
  · exact e
  · simp [h] at hs

theorem advance_cons {s : State} {p : Ports s.params.nMax} {rest : List (Ports s.params.nMax)}
    (h : s.script = p :: rest) : s.advance = { s with ports := p, script := rest } := by
  rw [State.advance, h]

/-- Settles O6: the registers stay, and the ports move by the script. -/
theorem advanceMovesOnlyTheHostsPorts : Obligations.AdvanceMovesOnlyTheHostsPorts := by
  refine fun s => ⟨advance_registers s, fun h => ?_, fun p rest h => advance_cons h⟩
  rw [advance_nil h]
  exact ⟨rfl, rfl, h⟩

/-! ## Edges that accept nothing -/

/-- The engine's settling overrides BUSY and `done`, and reads no port. -/
theorem engineContinue_registers (s : State) :
    (engineContinue s).registers = engineContinue s.registers := by
  rw [engineContinue, engineSettle, apply_ite State.registers]
  rfl

theorem cmdReady_of_busy {s : State} (h : s.busy = true) : s.cmdReady = false := by
  simp [State.cmdReady, h]

/-- Settles O8: at a BUSY edge the engine continues, and it reads the registers alone. -/
theorem nothingIsSampledWhileBusy : Obligations.NothingIsSampledWhileBusy := by
  intro s p hb hr hp
  refine ⟨cmdReady_of_busy hb, _, _, edge_busy hr hb, edge_busy hp hb, ?_, edge_busy hr hb,
    edge_busy hp hb⟩
  rw [advance_registers, advance_registers, engineContinue_registers, engineContinue_registers]
  rfl

/-- Settles O9: the idle edge writes `done` alone. -/
theorem idleBlockHoldsItsState : Obligations.IdleBlockHoldsItsState := fun _ hr hb hv =>
  ⟨edge_of_registers (edgeRegisters_idle hr hb hv), edge_of_registers (edgeRegisters_idle hr hb hv)⟩

/-! ## Outputs -/

theorem sampled_true {α : Type} {b : Bool} (h : b = true) (v : α) : sampled b v = some v :=
  if_pos h

theorem sampled_false {α : Type} {b : Bool} (h : b = false) (v : α) : sampled b v = none :=
  if_neg (Bool.eq_false_iff.mp h)

theorem resultsDefined_iff (s : State) :
    s.resultsDefined = true ↔ s.cmdReady = true ∨ s.done = true :=
  Bool.or_eq_true_iff

/-- Settles O51: each port samples its register where R193 defines the sample. -/
theorem outputsAreDefinedAtBoundaries : Obligations.OutputsAreDefinedAtBoundaries := by
  refine fun s => ⟨fun h => ?_, cmdReady_of_busy, fun hready hdone => ?_, fun hr => ?_⟩
  · have hdef := (resultsDefined_iff s).mpr h
    exact ⟨sampled_true hdef _, sampled_true hdef _, sampled_true hdef _⟩
  · have hdef : s.resultsDefined = false := by simp [State.resultsDefined, hready, hdone]
    exact ⟨sampled_false hdef _, sampled_false hdef _, sampled_false hdef _⟩
  · have hdef : s.configDefined = true := by simp [State.configDefined, hr]
    exact ⟨sampled_true hdef _, sampled_true hdef _, sampled_true hdef _⟩

/-! ## A run of driven commands -/

/-- The port values of a list of commands without operands, one a step. -/
def issueAll (n : Nat) (is : List Instr) : List (Ports n) := is.map fun i => issuePorts i 0 0

/-- No command moves the host's script. -/
theorem exec_script {i : Instr} {s t : State} {is : List Instr} (h : exec i s = .next t)
    (hs : s.script = issueAll s.params.nMax is) : t.script = issueAll t.params.nMax is := by
  obtain ⟨c, -, -, rfl⟩ | ⟨n, -, -, -, -, rfl⟩ | ⟨-, -, rfl⟩ | ⟨k, -, -, -, rfl⟩ := exec_cases h <;>
    exact hs

/-- After an edge the host offers the next command of its list, as if it had just begun to drive
it. -/
theorem advance_eq_drive {s : State} {is : List Instr} (h : s.script = issueAll s.params.nMax is) :
    ∃ t : State, s.advance = t.drive (issueAll t.params.nMax is) ∧
      t.architectural = s.architectural ∧ t.busy = s.busy := by
  cases is with
  | nil => exact ⟨s.advance, rfl, by rw [advance_nil h]; rfl, advance_busy s⟩
  | cons i is => exact ⟨s, advance_cons h, rfl, rfl⟩

theorem accepts_drive_cons {s : State} (hb : s.busy = false) (i : Instr) (is : List Instr) :
    (s.drive (issueAll s.params.nMax (i :: is))).accepts = true :=
  (accepts_iff _).mpr ⟨rfl, hb, rfl⟩

/-- The machine under a driven list simulates the list's commands run one after the other: the
architectural registers agree before and after each command, and BUSY stays 0. -/
theorem runMachine_drive_refines_runCommands (is : List Instr) {s u : State} (hb : s.busy = false)
    (harch : s.architectural = u.architectural) (his : ∀ i ∈ is, i.WF ∧ ∀ n, i ≠ .load n) :
    ∃ t v, runMachine is.length (s.drive (issueAll s.params.nMax is)) = .next t ∧
      runCommands is u = .next v ∧ t.architectural = v.architectural := by
  induction is generalizing s u with
  | nil => exact ⟨s, u, rfl, rfl, harch⟩
  | cons i is ih =>
    obtain ⟨hwf, hi⟩ := his i List.mem_cons_self
    obtain ⟨a, ha⟩ := exec_next i (s.drive (issueAll s.params.nMax (i :: is)))
    obtain ⟨b, hb'⟩ := exec_next i u
    have hstep : step (s.drive (issueAll s.params.nMax (i :: is))) = .next a.advance :=
      step_command (accepts_drive_cons hb i is) (decode_encode hwf) ha
    have hdrive : (s.drive (issueAll s.params.nMax (i :: is))).architectural =
        u.architectural := harch
    have hab : a.architectural = b.architectural := exec_architectural_congr hi hdrive ha hb'
    obtain ⟨a', hadvance, harch', hbusy'⟩ := advance_eq_drive (exec_script ha rfl)
    obtain ⟨-, hbusy, -⟩ := commandFrames i _ a ha
    obtain ⟨t, v, ht, hv, htv⟩ := ih (hbusy'.trans (hbusy.trans hb)) (harch'.trans hab)
      fun j hj => his j (List.mem_cons_of_mem i hj)
    refine ⟨t, v, ?_, ?_, htv⟩
    · rw [List.length_cons, runMachine, hstep, hadvance]
      exact ht
    · rw [runCommands, hb']
      exact hv

/-- Settles O10, from the simulation with both runs started at `s`. -/
theorem commandsRunInAcceptanceOrder : Obligations.CommandsRunInAcceptanceOrder :=
  fun _ is hb his => runMachine_drive_refines_runCommands is hb rfl his

end Sys2Proof.Machine
end

section
/-! The reference engine beside the machine (R150, R191): where the two edges differ, and a RAND run
edge by edge. -/

namespace Sys2Proof.Machine

/-! ## The engine after `j` edges of a RAND of `k` steps -/

/-- The state of the engine at the end of the `j`-th edge of a RAND of `k` steps: `j` steps made,
`k - j` left (R150). -/
def randEdges (k j : Nat) (s : State) : State :=
  let r := collect (k := s.params.kMax) s.len.toNat s.taps j s.state 0
  engineSettle { s with state := r.1, acc := r.2, cnt := BitVec.ofNat 16 (k - j) }

theorem engineStart_eq_randEdges {k : Nat} (h : 1 ≤ k) (s : State) :
    engineStart k s = randEdges k 1 s := engineStart_pos h s

theorem randEdges_of_lt {k j : Nat} (hjk : j < k) (hk : k ≤ 65535) (s : State) :
    randEdges k j s =
      { s with
        state := (collect (k := s.params.kMax) s.len.toNat s.taps j s.state 0).1,
        acc := (collect (k := s.params.kMax) s.len.toNat s.taps j s.state 0).2,
        cnt := BitVec.ofNat 16 (k - j), busy := true, done := false } := by
  have hcnt : (BitVec.ofNat 16 (k - j)).toNat ≠ 0 := by
    rw [toNat_ofNat_half (by omega)]
    omega
  exact if_neg fun h => hcnt (congrArg BitVec.toNat h)

/-- The engine's next edge makes the next step (R150). -/
theorem engineContinue_randEdges {k j : Nat} (hjk : j < k) (hk : k ≤ 65535) (s : State) :
    engineContinue (randEdges k j s) = randEdges k (j + 1) s := by
  have hcnt : BitVec.ofNat 16 (k - j) - 1 = BitVec.ofNat 16 (k - (j + 1)) := by
    apply BitVec.eq_of_toNat_eq
    have hone : (1 : Half).toNat = 1 := rfl
    rw [BitVec.toNat_sub, toNat_ofNat_half (by omega), toNat_ofNat_half (by omega), hone]
    omega
  rw [randEdges_of_lt hjk hk, randEdges, collect_succ, ← hcnt]
  rfl

/-- With its last step made, the RAND has written what R144 says. -/
theorem randEdges_self {k : Nat} (hk : 1 ≤ k) {s : State} (hb : s.busy = false) :
    randEdges k k s = randRegister k s := by
  have hne : k ≠ 0 := Nat.one_le_iff_ne_zero.mp hk
  have hsettle : randEdges k k s = { randRegister k s with busy := false } := by
    rw [randEdges, randRegister, Nat.sub_self, if_neg hne, if_neg hne]
    rfl
  rw [hsettle, ← hb]
  rfl

/-! ## Where the two edges differ -/

/-- A RAND of at most one step completes at its acceptance edge. -/
theorem engineStart_eq_randRegister {k : Nat} (hk : k ≤ 1) {s : State} (hb : s.busy = false) :
    engineStart k s = randRegister k s := by
  obtain rfl | rfl : k = 0 ∨ k = 1 := by omega
  · exact engineStart_zero s
  · rw [engineStart_eq_randEdges le_rfl, randEdges_self le_rfl hb]

/-- An edge that accepts a RAND of two or more steps that passes its checks. -/
def State.acceptsLongRand (s : State) (k : Nat) : Prop :=
  s.accepts = true ∧ decode s.ports.cmd = some (.rand k) ∧ s.loaded = true ∧ 2 ≤ k ∧
    k ≤ s.params.kMax

theorem clockEdge_rand {s : State} {k : Nat} (ha : s.accepts = true)
    (hd : decode s.ports.cmd = some (.rand k)) (hl : s.loaded = true) (hpos : 1 ≤ k)
    (hk : k ≤ s.params.kMax) : clockEdge s = .next (randEdges k 1 s).advance := by
  refine edge_of_registers ((edgeRegisters_command ha hd).trans ?_)
  rw [engineAccept_rand, randChecked_pass _ hl hk, engineStart_eq_randEdges hpos]

/-- The checks pass or fail alike, and of a short RAND the two kinds of edge make the same. -/
theorem randChecked_engineStart_eq {s : State} {k : Int} (hb : s.busy = false)
    (hshort : s.loaded = true → k ≤ 1 ∨ (s.params.kMax : Int) < k) :
    randChecked k engineStart s = randChecked k randRegister s := by
  unfold randChecked
  split
  next hl =>
    split
    · rfl
    next hgood =>
      rw [badArgument_eq_true_iff] at hgood
      exact engineStart_eq_randRegister (by have := hshort hl; omega) hb
  · rfl

/-- Settles O49: the two edges run the same registers' part, but for RAND, and a short RAND is run
alike. -/
theorem engineAgreesOnEveryOtherEdge : Obligations.EngineAgreesOnEveryOtherEdge := by
  intro s hshort
  obtain ⟨t, ht, hstep⟩ := step_next s
  rw [hstep]
  refine edge_of_registers (ht ▸ ?_)
  obtain ⟨hr, h⟩ | ⟨hr, hb, h⟩ | ⟨hr, hb, hv, h⟩ | ⟨ha, hd, h⟩ | ⟨i, ha, hd, h⟩ :=
    edgeRegisters_cases exec s
  · rw [h, edgeRegisters_rst hr]
  · rw [h, edgeRegisters_busy hr hb]
  · rw [h, edgeRegisters_idle hr hb hv]
  · rw [h, edgeRegisters_illegal ha hd]
  · rw [h, edgeRegisters_command ha hd]
    obtain ⟨-, hb, -⟩ := (accepts_iff s).mp ha
    by_cases hrand : ∃ k, i = .rand k
    · obtain ⟨k, rfl⟩ := hrand
      rw [engineAccept_rand, exec_rand, afterRand, randChecked_engineStart_eq hb (hshort k ha hd)]
    · exact engineAccept_eq_exec (not_exists.mp hrand) s

/-- All that an edge of the reference engine can be: the start of a long RAND, or the machine's
own. -/
theorem clockEdge_cases (s : State) :
    (∃ k, s.acceptsLongRand k ∧ clockEdge s = .next (randEdges k 1 s).advance) ∨
      ((¬∃ k, s.acceptsLongRand k) ∧ clockEdge s = step s) := by
  by_cases h : ∃ k, s.acceptsLongRand k
  · obtain ⟨k, ha, hd, hl, hk2, hk⟩ := h
    exact .inl ⟨k, ⟨ha, hd, hl, hk2, hk⟩, clockEdge_rand ha hd hl (by omega) hk⟩
  · refine .inr ⟨h, engineAgreesOnEveryOtherEdge s fun k ha hd hl => ?_⟩
    by_contra hk
    obtain ⟨n, rfl⟩ := Int.eq_ofNat_of_zero_le (show 0 ≤ k by omega)
    exact h ⟨n, ha, hd, hl, by omega, by omega⟩

/-! ## A RAND edge by edge -/

/-- The host keeps `rst` low at the next `m` edges. -/
def State.noResetEdges (s : State) (m : Nat) : Prop := ∀ n, m = n + 1 → s.noResetFor n

theorem noResetEdges_advance {s : State} {m : Nat} (h : s.noResetFor m) :
    s.advance.noResetEdges m := by
  rintro n rfl
  exact noResetFor_advance h

/-- Neither the start nor a later step of the engine moves the host's lines. -/
theorem engineSettle_noResetFor {s : State} {m : Nat} (h : s.noResetFor m) :
    (engineSettle s).noResetFor m := by
  obtain ⟨-, e⟩ | ⟨-, e⟩ := engineSettle_cases s <;> rw [e] <;> exact h

/-- `m` edges of a running RAND make `m` steps, whatever the host offers. -/
theorem clockEdges_running (m : Nat) {s u : State} {k j : Nat} (hk : k ≤ 65535)
    (hu : u.registers = (randEdges k j s).registers) (hm : j + m ≤ k) (hlow : u.noResetEdges m) :
    ∃ v, clockEdges m u = .next v ∧ v.registers = (randEdges k (j + m) s).registers := by
  induction m generalizing u j with
  | zero => exact ⟨u, rfl, hu⟩
  | succ m ih =>
    have hjk : j < k := by omega
    have hnr : u.noResetFor m := hlow m rfl
    have hb : u.busy = true := by
      rw [randEdges_of_lt hjk hk] at hu
      exact congrArg State.busy hu
    have hedge : clockEdge u = .next (engineContinue u).advance := edge_busy hnr.1 hb
    have hreg : (engineContinue u).advance.registers = (randEdges k (j + 1) s).registers := by
      rw [advance_registers, engineContinue_registers, hu, ← engineContinue_registers,
        engineContinue_randEdges hjk hk]
    obtain ⟨v, hv, hvr⟩ := ih hreg (by omega) (noResetEdges_advance (engineSettle_noResetFor hnr))
    refine ⟨v, ?_, ?_⟩
    · rw [clockEdges, hedge]
      exact hv
    · rw [hvr, Nat.add_right_comm, Nat.add_assoc]

/-- `j` edges from the acceptance of a RAND that passes its checks, the engine has made `j`
steps. -/
theorem clockEdges_rand {s : State} {k j : Nat} (ha : s.accepts = true)
    (hd : decode s.ports.cmd = some (.rand k)) (hl : s.loaded = true) (hk : k ≤ s.params.kMax)
    (hj : 1 ≤ j) (hjk : j ≤ k) (hnr : s.noResetFor (j - 1)) :
    ∃ u, clockEdges j s = .next u ∧ u.registers = (randEdges k j s).registers := by
  obtain ⟨m, rfl⟩ := Nat.exists_eq_add_of_le hj
  have hkMax : s.params.kMax ≤ 32767 := s.params.kMax_le
  rw [Nat.add_sub_cancel_left] at hnr
  obtain ⟨u, hu, hur⟩ := clockEdges_running m (show k ≤ 65535 by omega)
    (advance_registers (randEdges k 1 s)) hjk
    (noResetEdges_advance (engineSettle_noResetFor hnr))
  refine ⟨u, ?_, hur⟩
  rw [Nat.add_comm, clockEdges, clockEdge_rand ha hd hl (hj.trans hjk) hk]
  exact hu

/-- Settles O47: after `k` edges all `k` steps are made, and that is RAND's whole effect. -/
theorem engineMeetsTheAtomicRand : Obligations.EngineMeetsTheAtomicRand := by
  intro s k ha hd hl hpos hk hnr
  obtain ⟨-, hb, -⟩ := (accepts_iff s).mp ha
  obtain ⟨u, hu, hur⟩ := clockEdges_rand ha hd hl hk hpos le_rfl hnr
  refine ⟨_, u, step_command ha hd (exec_rand_loaded hl hk), hu, ?_⟩
  rw [hur, randEdges_self hpos hb, advance_registers]

/-- Settles O48: after `j < k` edges the registers are those of `randEdges_of_lt`. -/
theorem engineIsBusyMeanwhile : Obligations.EngineIsBusyMeanwhile := by
  intro s k j ha hd hl hk hj hjk hnr
  have hkMax : s.params.kMax ≤ 32767 := s.params.kMax_le
  obtain ⟨u, hu, hreg⟩ := clockEdges_rand ha hd hl hk hj hjk.le hnr
  rw [randEdges_of_lt hjk (by omega)] at hreg
  have hb : u.busy = true := congrArg State.busy hreg
  have hcnt : u.cnt = BitVec.ofNat 16 (k - j) := congrArg State.cnt hreg
  refine ⟨u, hu, hb, cmdReady_of_busy hb, congrArg State.done hreg, ?_,
    congrArg (fun v => v.taps.toNat) hreg, (congrArg State.len hreg :),
    (congrArg State.loaded hreg).trans hl, congrArg (fun v => v.result.toNat) hreg,
    (congrArg State.status hreg :)⟩
  rw [hcnt, toNat_ofNat_half (by omega)]

/-! ## Completion -/

/-- The machine's step completes a command where it accepts one, or makes a RAND's last step. -/
theorem step_done_iff {s t : State} (h : step s = .next t) :
    t.done = true ↔ s.ports.rst = false ∧ (s.accepts = true ∨ s.busy = true ∧ s.cnt = 1) := by
  obtain ⟨r, hr, hs⟩ := step_next s
  obtain rfl : r.advance = t := Host.Outcome.next.inj (hs.symm.trans h)
  rw [advance_done]
  obtain ⟨hrst, e⟩ | ⟨hrst, hb, e⟩ | ⟨hrst, hb, hv, e⟩ | ⟨ha, -, e⟩ | ⟨i, ha, -, e⟩ :=
    edgeRegisters_cases exec s
  · obtain rfl := Host.Outcome.next.inj (e.symm.trans hr)
    simp [hrst]
  · obtain rfl := Host.Outcome.next.inj (e.symm.trans hr)
    obtain ⟨hc, e'⟩ | ⟨hc, e'⟩ := engineContinue_cases s
    · simp [e', hrst, hb, hc]
    · simpa [e', hrst, hb, accepts_iff] using hc
  · obtain rfl := Host.Outcome.next.inj (e.symm.trans hr)
    simp [hb, hv, accepts_iff]
  · obtain rfl := Host.Outcome.next.inj (e.symm.trans hr)
    obtain ⟨hrst, -, -⟩ := (accepts_iff s).mp ha
    simp [ha, hrst]
  · obtain ⟨hrst, -, -⟩ := (accepts_iff s).mp ha
    obtain ⟨hdone, -⟩ := exec_error_writes_status_alone (e.symm.trans hr)
    simp [ha, hrst, hdone]

theorem exists_acceptsLongRand_iff (s : State) :
    (∃ k, s.acceptsLongRand k) ↔ s.accepts = true ∧ ∃ k : Int,
      decode s.ports.cmd = some (.rand k) ∧ s.loaded = true ∧ 2 ≤ k ∧ k ≤ s.params.kMax := by
  constructor
  · rintro ⟨k, ha, hd, hl, hk2, hk⟩
    exact ⟨ha, k, hd, hl, by omega, by omega⟩
  · rintro ⟨ha, k, hd, hl, hk2, hk⟩
    obtain ⟨n, rfl⟩ := Int.eq_ofNat_of_zero_le (show 0 ≤ k by omega)
    exact ⟨n, ha, hd, hl, by omega, by omega⟩

/-- Settles O50: the reference engine completes where the machine does, but for the start of a long
RAND, after which it is BUSY. -/
theorem doneMarksExactlyTheCompletions : Obligations.DoneMarksExactlyTheCompletions := by
  intro s t u hs hu
  have ht := step_done_iff hs
  refine ⟨ht, ?_⟩
  have hiff := exists_acceptsLongRand_iff s
  obtain ⟨k, hlong, e⟩ | ⟨hshort, e⟩ := clockEdge_cases s
  · have hkMax : s.params.kMax ≤ 32767 := s.params.kMax_le
    obtain ⟨-, hk⟩ := hiff.mp ⟨k, hlong⟩
    obtain ⟨ha, -, -, hk2, hkle⟩ := hlong
    obtain ⟨-, hb, -⟩ := (accepts_iff s).mp ha
    obtain rfl := Host.Outcome.next.inj (e.symm.trans hu)
    rw [advance_done, randEdges_of_lt hk2 (by omega)]
    simp [hb, hk]
  · obtain rfl : t = u := Host.Outcome.next.inj ((e.trans hs).symm.trans hu)
    rw [ht]
    rw [hiff] at hshort
    tauto

end Sys2Proof.Machine
end

section
/-! The invariant of the block (R45, R46): it holds at reset, and every edge keeps it. -/

namespace Sys2Proof.Machine

/-! ## The registers' part of an edge -/

theorem inv_resetOf (p : Params) : (State.resetOf p).Inv where
  loaded h := absurd h Bool.false_ne_true
  unloaded _ := ⟨rfl, rfl, rfl, rfl, .inl rfl⟩
  status := StatusName.ok.code_ne_seven
  busy h := absurd h Bool.false_ne_true
  idle _ := rfl

/-- The invariant reads no port. -/
theorem inv_resetRegisters (s : State) : (resetRegisters s).Inv :=
  let h := inv_resetOf s.params
  ⟨h.loaded, h.unloaded, h.status, h.busy, h.idle⟩

theorem loadedInv_advance {s : State} (h : s.LoadedInv) : s.advance.LoadedInv := by
  obtain ⟨-, e⟩ | ⟨_, _, -, e⟩ := s.advance_cases <;> rw [e] <;> exact h

theorem inv_advance {s : State} (h : s.Inv) : s.advance.Inv := by
  obtain ⟨-, e⟩ | ⟨_, _, -, e⟩ := s.advance_cases <;> rw [e] <;>
    exact ⟨h.loaded, h.unloaded, h.status, h.busy, h.idle⟩

section commands
variable {s : State}

theorem inv_done (h : s.Inv) (done : Bool) : ({ s with done := done } : State).Inv :=
  ⟨h.loaded, h.unloaded, h.status, h.busy, h.idle⟩

/-- The codes of an unloaded block (R46). -/
theorem unloaded_code {c : StatusName} (h : c ≠ .invalidArgument) :
    c.code = 0 ∨ c.code = 1 ∨ c.code = 2 ∨ c.code = 4 ∨ c.code = 5 ∨ c.code = 6 := by
  cases c with
  | invalidArgument => exact absurd rfl h
  | _ => decide

/-- An error keeps the invariant: INVALID_ARGUMENT comes of a loaded block alone. -/
theorem inv_finish (h : s.Inv) {c : StatusName} (hc : s.loaded = true ∨ c ≠ .invalidArgument) :
    (finish c s).Inv where
  loaded := h.loaded
  unloaded hl := by
    obtain ⟨hstate, htaps, hlen, hresult, -⟩ := h.unloaded hl
    have hl : s.loaded = false := hl
    exact ⟨hstate, htaps, hlen, hresult, unloaded_code (hc.resolve_left (by simp [hl]))⟩
  status := c.code_ne_seven
  busy := h.busy
  idle := h.idle

theorem loadedInv_loadRegister {n : Nat} (hlen : badLength s.params n = false)
    (hfill : outsideLength n s.ports.fill = false) (htaps : outsideLength n s.ports.taps = false) :
    (loadRegister n s).LoadedInv := by
  rw [← Bool.not_eq_true, badLength_eq_true_iff] at hlen
  have hn : (BitVec.ofNat 16 n : Half).toNat = n := toNat_ofNat_len (p := s.params) (by omega)
  show 1 ≤ (BitVec.ofNat 16 n).toNat ∧ (BitVec.ofNat 16 n).toNat ≤ s.params.nMax ∧
    Within (BitVec.ofNat 16 n).toNat s.ports.fill ∧ Within (BitVec.ofNat 16 n).toNat s.ports.taps
  rw [hn]
  exact ⟨by omega, by omega, (outsideLength_eq_false_iff _ _).mp hfill,
    (outsideLength_eq_false_iff _ _).mp htaps⟩

theorem inv_loadRegister (h : s.Inv) {n : Nat} (hlen : badLength s.params n = false)
    (hfill : outsideLength n s.ports.fill = false) (htaps : outsideLength n s.ports.taps = false) :
    (loadRegister n s).Inv where
  loaded _ := loadedInv_loadRegister hlen hfill htaps
  unloaded hl := absurd hl.symm Bool.false_ne_true
  status := StatusName.ok.code_ne_seven
  busy hb := by
    obtain ⟨-, hcnt⟩ := h.busy hb
    exact ⟨rfl, hcnt⟩
  idle := h.idle

theorem inv_stepRegister (h : s.Inv) (hl : s.loaded = true) : (stepRegister s).Inv where
  loaded _ := loadedInv_stepsRegister (h.loaded hl) 1
  unloaded hl' := absurd (hl'.symm.trans hl) Bool.false_ne_true
  status := StatusName.ok.code_ne_seven
  busy := h.busy
  idle := h.idle

theorem inv_randRegister (h : s.Inv) (hl : s.loaded = true) (hb : s.busy = false) (k : Nat) :
    (randRegister k s).Inv where
  loaded _ := loadedInv_randRegister (h.loaded hl) k
  unloaded hl' := absurd (hl'.symm.trans hl) Bool.false_ne_true
  status := StatusName.ok.code_ne_seven
  busy hb' := absurd (hb.symm.trans hb') Bool.false_ne_true
  idle _ := by
    show (if k = 0 then s.cnt else 0) = 0
    rw [h.idle hb, ite_self]

/-- Each outcome of a command keeps the invariant. -/
theorem inv_exec (h : s.Inv) (hb : s.busy = false) {i : Instr} {t : State}
    (ht : exec i s = .next t) : t.Inv := by
  cases i with
  | load n =>
    rw [exec_load, Host.Outcome.next.injEq] at ht
    obtain ⟨-, e⟩ | ⟨-, -, e⟩ | ⟨-, -, -, e⟩ | ⟨h1, h2, h3, e⟩ := afterLoad_cases n s <;>
      rw [← ht, e]
    · exact inv_finish h (.inr (by decide))
    · exact inv_finish h (.inr (by decide))
    · exact inv_finish h (.inr (by decide))
    · exact inv_loadRegister h h1 h2 h3
  | step =>
    rw [exec_step, Host.Outcome.next.injEq] at ht
    rw [← ht]
    cases hl : s.loaded
    · exact afterStep_unloaded hl ▸ inv_finish h (.inr (by decide))
    · exact afterStep_loaded hl ▸ inv_stepRegister h hl
  | rand k =>
    rw [exec_rand, Host.Outcome.next.injEq, afterRand] at ht
    obtain ⟨hl, e⟩ | ⟨hl, -, e⟩ | ⟨hl, -, e⟩ := randChecked_cases k randRegister s <;> rw [← ht, e]
    · exact inv_finish h (.inr (by decide))
    · exact inv_finish h (.inl hl)
    · exact inv_randRegister h hl hb k.toNat

end commands

/-! ## The running engine -/

/-- Collecting a bit needs one more bit of room (R143). -/
theorem collectBit_toNat_lt {k : Nat} {acc : BitVec k} {n : Nat} (hacc : acc.toNat < 2 ^ n)
    (hn : n + 1 ≤ k) (b : Bool) : (collectBit acc b).toNat < 2 ^ (n + 1) := by
  have hpow : 2 ^ (n + 1) ≤ 2 ^ k := Nat.pow_le_pow_right Nat.two_pos hn
  have hb : b.toNat ≤ 1 := Bool.toNat_le b
  rw [Nat.pow_succ] at hpow ⊢
  rw [collectBit_toNat acc b (by omega)]
  omega

/-- What a step of the engine leaves, with `n` steps to make after it. -/
theorem inv_engineSettle_engineStep {s : State} (h : s.Inv) (hl : s.loaded = true)
    {acc : BitVec s.params.kMax} {n : Nat} {cnt : Half} (hcnt : cnt.toNat = n)
    (hn : n < s.params.kMax) (hacc : acc.toNat < 2 ^ (s.params.kMax - (n + 1))) :
    (engineSettle (engineStep s acc cnt)).Inv := by
  have hloaded : (engineStep s acc cnt).LoadedInv := loadedInv_stepsRegister (h.loaded hl) 1
  obtain ⟨hc, e⟩ | ⟨hc, e⟩ := engineSettle_cases (engineStep s acc cnt) <;> rw [e]
  · exact {
      loaded := fun _ => hloaded
      unloaded := fun hl' => absurd (hl'.symm.trans hl) Bool.false_ne_true
      status := StatusName.ok.code_ne_seven
      busy := fun hb => absurd hb Bool.false_ne_true
      idle := fun _ => hc }
  · have hpos : 1 ≤ n := by
      rw [← hcnt, Nat.one_le_iff_ne_zero]
      exact fun h0 => hc (BitVec.eq_of_toNat_eq h0)
    have hlt := collectBit_toNat_lt hacc (by omega) s.fb
    have hexp : s.params.kMax - (n + 1) + 1 = s.params.kMax - n := by omega
    rw [hexp, ← hcnt] at hlt
    exact {
      loaded := fun _ => hloaded
      unloaded := fun hl' => absurd (hl'.symm.trans hl) Bool.false_ne_true
      status := h.status
      busy := fun _ => ⟨hl, hcnt ▸ hpos, hcnt ▸ hn, hlt⟩
      idle := fun hb => absurd hb.symm Bool.false_ne_true }

theorem inv_engineContinue {s : State} (h : s.Inv) (hb : s.busy = true) :
    (engineContinue s).Inv := by
  obtain ⟨hl, hpos, hlt, hacc⟩ := h.busy hb
  have hcnt : (s.cnt - 1).toNat = s.cnt.toNat - 1 := by
    have hle : (1 : Half) ≤ s.cnt := hpos
    exact BitVec.toNat_sub_of_le hle
  exact inv_engineSettle_engineStep h hl hcnt (by omega)
    (by rwa [Nat.sub_add_cancel hpos])

theorem inv_engineStart {s : State} (h : s.Inv) (hl : s.loaded = true) {k : Nat} (hpos : 1 ≤ k)
    (hk : k ≤ s.params.kMax) : (engineStart k s).Inv := by
  have hkMax : s.params.kMax ≤ 32767 := s.params.kMax_le
  have hcnt : (BitVec.ofNat 16 (k - 1)).toNat = k - 1 := toNat_ofNat_half (by omega)
  rw [engineStart_pos hpos]
  exact inv_engineSettle_engineStep h hl hcnt (by omega) (Nat.two_pow_pos _)

/-! ## The obligations -/

/-- Settles O14, for all parameters and so for the block's own. -/
theorem resetMeetsTheInvariant : Obligations.ResetMeetsTheInvariant :=
  ⟨inv_resetOf, inv_resetOf Config.params⟩

/-- Settles O15, by what an edge can do. -/
theorem stepKeepsTheInvariant : Obligations.StepKeepsTheInvariant := by
  intro s h
  obtain ⟨t, ht, hs⟩ := step_next s
  refine ⟨t.advance, hs, inv_advance ?_⟩
  obtain ⟨-, e⟩ | ⟨-, hb, e⟩ | ⟨-, -, -, e⟩ | ⟨-, -, e⟩ | ⟨i, ha, -, e⟩ :=
    edgeRegisters_cases exec s
  · exact Host.Outcome.next.inj (e.symm.trans ht) ▸ inv_resetRegisters s
  · exact Host.Outcome.next.inj (e.symm.trans ht) ▸ inv_engineContinue h hb
  · exact Host.Outcome.next.inj (e.symm.trans ht) ▸ inv_done h false
  · exact Host.Outcome.next.inj (e.symm.trans ht) ▸ inv_finish h (.inr (by decide))
  · obtain ⟨-, hb, -⟩ := (accepts_iff s).mp ha
    exact inv_exec h hb (e.symm.trans ht)

/-- Settles O16: the edge is the machine's own, or it starts the engine. -/
theorem clockEdgeKeepsTheInvariant : Obligations.ClockEdgeKeepsTheInvariant := by
  intro s h
  obtain ⟨k, ⟨-, -, hl, hk2, hk⟩, e⟩ | ⟨-, e⟩ := clockEdge_cases s
  · have hpos : 1 ≤ k := by omega
    refine ⟨_, e, inv_advance ?_⟩
    rw [← engineStart_eq_randEdges hpos]
    exact inv_engineStart h hl hpos hk
  · rw [e]
    exact stepKeepsTheInvariant s h

/-! ## The configuration of a lifetime -/

/-- The registers a lifetime keeps (R21, R22, R23), and the parameters. -/
def State.SameConfig (t s : State) : Prop :=
  t.params = s.params ∧ t.taps.toNat = s.taps.toNat ∧ t.len = s.len ∧ t.loaded = s.loaded

theorem sameConfig_advance {s t : State} (h : t.SameConfig s) : t.advance.SameConfig s := by
  obtain ⟨hparams, htaps, hlen, hloaded⟩ := h
  exact ⟨(advance_params t).trans hparams, (advance_taps_toNat t).trans htaps,
    (advance_len t).trans hlen, (advance_loaded t).trans hloaded⟩

/-- A step of the engine keeps the configuration, at the start of a RAND and later. -/
theorem sameConfig_engineSettle_engineStep (s : State) (acc : BitVec s.params.kMax) (cnt : Half) :
    (engineSettle (engineStep s acc cnt)).SameConfig s := by
  obtain ⟨-, e⟩ | ⟨-, e⟩ := engineSettle_cases (engineStep s acc cnt) <;> rw [e] <;>
    exact ⟨rfl, rfl, rfl, rfl⟩

/-- A command but for a successful LOAD keeps the configuration (R105). -/
theorem exec_sameConfig {i : Instr} {s t : State} (h : exec i s = .next t)
    (hload : ∀ n, i = .load n → t.status ≠ 0) : t.SameConfig s := by
  obtain ⟨c, -, -, rfl⟩ | ⟨n, hi, -, -, -, rfl⟩ | ⟨-, -, rfl⟩ | ⟨k, -, -, -, rfl⟩ := exec_cases h
  · exact ⟨rfl, rfl, rfl, rfl⟩
  · exact absurd (loadRegister_status n s) (hload n hi)
  · exact ⟨rfl, rfl, rfl, rfl⟩
  · exact ⟨rfl, rfl, rfl, rfl⟩

theorem step_sameConfig {s t : State} (h : step s = .next t) (hr : s.ports.rst = false)
    (hload : ∀ n, s.accepts = true → decode s.ports.cmd = some (.load n) → t.status ≠ 0) :
    t.SameConfig s := by
  obtain ⟨r, hreg, hs⟩ := step_next s
  obtain rfl : r.advance = t := Host.Outcome.next.inj (hs.symm.trans h)
  simp only [advance_status] at hload
  apply sameConfig_advance
  obtain ⟨hrst, -⟩ | ⟨-, -, e⟩ | ⟨-, -, -, e⟩ | ⟨-, -, e⟩ | ⟨i, ha, hd, e⟩ :=
    edgeRegisters_cases exec s
  · exact absurd (hr.symm.trans hrst) Bool.false_ne_true
  · obtain rfl := Host.Outcome.next.inj (e.symm.trans hreg)
    exact sameConfig_engineSettle_engineStep s s.acc (s.cnt - 1)
  · obtain rfl := Host.Outcome.next.inj (e.symm.trans hreg)
    exact ⟨rfl, rfl, rfl, rfl⟩
  · obtain rfl := Host.Outcome.next.inj (e.symm.trans hreg)
    exact ⟨rfl, rfl, rfl, rfl⟩
  · exact exec_sameConfig (e.symm.trans hreg) fun n hi => hload n ha (hi ▸ hd)

/-- Settles O21: the machine's step by its cases, and the start of a long RAND is a step of the
engine. -/
theorem onlyALoadOrResetWritesTheConfiguration :
    Obligations.OnlyALoadOrResetWritesTheConfiguration := by
  intro s t h hr hload
  obtain h | h := h
  · exact step_sameConfig h hr hload
  obtain ⟨k, -, e⟩ | ⟨-, e⟩ := clockEdge_cases s
  · obtain rfl := Host.Outcome.next.inj (e.symm.trans h)
    exact sameConfig_advance (sameConfig_engineSettle_engineStep s 0 (BitVec.ofNat 16 (k - 1)))
  · exact step_sameConfig (e.symm.trans h) hr hload

end Sys2Proof.Machine
end

section
/-! STEP as a map on the states of a length (R129): with the tap at LEN-1 it is a bijection, so
every orbit is a cycle; without that tap two states merge. -/

namespace Sys2Proof.Machine

/-! ## The feedback tree, with the top bit split off -/

theorem parityBelow_congr {w w' : Nat} {v : BitVec w} {v' : BitVec w'} {m : Nat}
    (h : ∀ p, p < m → v.getLsbD p = v'.getLsbD p) : parityBelow v m = parityBelow v' m := by
  induction m with
  | zero => rfl
  | succ m ih =>
    rw [parityBelow, parityBelow, h m m.lt_succ_self, ih fun p hp => h p (Nat.lt_succ_of_lt hp)]

/-- Bits that are 0 add nothing. -/
theorem parityBelow_eq_of_zero_above {w : Nat} {v : BitVec w} {n m : Nat} (hnm : n ≤ m)
    (h : ∀ p, n ≤ p → v.getLsbD p = false) : parityBelow v m = parityBelow v n := by
  induction m, hnm using Nat.le_induction with
  | base => rfl
  | succ m hm ih => rw [parityBelow, h m hm, ih, Bool.xor_false]

theorem parity_and_ones {w m : Nat} (v : BitVec w) (hm : m ≤ w) :
    parity (v &&& ones w m) = parityBelow v m := by
  rw [parity, parityBelow_eq_of_zero_above hm fun p hp => by
    simp [getLsbD_ones, Nat.not_lt.mpr hp]]
  refine parityBelow_congr fun p hp => ?_
  simp [getLsbD_ones, hp, hp.trans_le hm]

/-- The states of a length (R45). -/
def statesOf (w len : Nat) : Set (BitVec w) := {x | Within len x}

theorem finite_statesOf (w len : Nat) : (statesOf w len).Finite :=
  have : Finite (BitVec w) := Finite.of_injective BitVec.toFin fun _ _ => BitVec.eq_of_toFin_eq
  Set.toFinite (statesOf w len)

section topTap
variable {w len : Nat} {taps : BitVec w}

/-- R129's equation: the top bit of the length beside the bits below it. -/
theorem feedback_eq_top_xor (htaps : Within len taps) (hpos : 1 ≤ len) (hlen : len ≤ w)
    (x : BitVec w) : feedback taps x =
      xor (parity (x &&& taps &&& ones w (len - 1)))
        (x.getLsbD (len - 1) && taps.getLsbD (len - 1)) := by
  obtain ⟨m, rfl⟩ := Nat.exists_eq_add_of_le' hpos
  rw [Nat.add_sub_cancel, parity_and_ones _ (by omega), feedback, parity,
    parityBelow_eq_of_zero_above hlen fun p hp => by simp [(within_iff _ _).mp htaps p hp],
    parityBelow, BitVec.getLsbD_and]

/-- The bits below the top one stand, one position higher, in the next state (R123). -/
theorem getLsbD_of_nextBits {x : BitVec w} {p : Nat} (hp : p + 1 < len) (hlen : len ≤ w) :
    x.getLsbD p = (nextBits len taps x).getLsbD (p + 1) := by
  rw [nextBits, getLsbD_shiftIn]
  simp [hp, hp.trans_le hlen]

theorem getLsbD_nextBits_zero (hpos : 1 ≤ len) (hlen : len ≤ w) (x : BitVec w) :
    (nextBits len taps x).getLsbD 0 = feedback taps x := by
  rw [nextBits, getLsbD_shiftIn]
  simp [Nat.lt_of_succ_le hpos, Nat.lt_of_succ_le (hpos.trans hlen)]

/-- With the top tap the state before a step can be recovered: its lower bits have moved up, and the
departing bit is the feedback bit less the rest of the tree. -/
theorem nextBits_injOn (htaps : Within len taps) (hpos : 1 ≤ len) (hlen : len ≤ w)
    (htop : taps.getLsbD (len - 1) = true) :
    Set.InjOn (nextBits len taps) (statesOf w len) := by
  intro x hx y hy hxy
  have hlow (p : Nat) (hp : p < len - 1) : x.getLsbD p = y.getLsbD p := by
    rw [getLsbD_of_nextBits (taps := taps) (by omega) hlen, hxy,
      ← getLsbD_of_nextBits (by omega) hlen]
  have hfb : feedback taps x = feedback taps y := by
    rw [← getLsbD_nextBits_zero hpos hlen, hxy, getLsbD_nextBits_zero hpos hlen]
  have hrest : parity (x &&& taps &&& ones w (len - 1)) =
      parity (y &&& taps &&& ones w (len - 1)) := by
    rw [parity_and_ones _ (by omega), parity_and_ones _ (by omega)]
    exact parityBelow_congr fun p hp => by simp [hlow p hp]
  rw [feedback_eq_top_xor htaps hpos hlen, feedback_eq_top_xor htaps hpos hlen, hrest, htop,
    Bool.and_true, Bool.and_true, Bool.xor_right_inj] at hfb
  apply BitVec.eq_of_getLsbD_eq
  intro p _
  obtain h | rfl | h := Nat.lt_trichotomy p (len - 1)
  · exact hlow p h
  · exact hfb
  · rw [(within_iff _ _).mp hx p (by omega), (within_iff _ _).mp hy p (by omega)]

theorem mapsTo_nextBits : Set.MapsTo (nextBits len taps) (statesOf w len) (statesOf w len) :=
  fun _ _ => within_shiftIn _ _ _

/-- Without the top tap a step forgets the top bit: the tree does not read it, and it leaves. -/
theorem nextBits_xor_top (htop : taps.getLsbD (len - 1) = false) (x : BitVec w) :
    feedback taps (x ^^^ 1#w <<< (len - 1)) = feedback taps x ∧
      nextBits len taps (x ^^^ 1#w <<< (len - 1)) = nextBits len taps x := by
  have hbit (p : Nat) (hp : p ≠ len - 1) :
      (x ^^^ 1#w <<< (len - 1)).getLsbD p = x.getLsbD p := by
    rw [← BitVec.twoPow_eq, BitVec.getLsbD_xor, BitVec.getLsbD_twoPow]
    simp [hp.symm]
  have hfb : feedback taps (x ^^^ 1#w <<< (len - 1)) = feedback taps x := by
    refine parityBelow_congr fun p _ => ?_
    rw [BitVec.getLsbD_and, BitVec.getLsbD_and]
    by_cases hp : p = len - 1
    · rw [hp, htop, Bool.and_false, Bool.and_false]
    · rw [hbit p hp]
  refine ⟨hfb, BitVec.eq_of_getLsbD_eq fun p _ => ?_⟩
  rw [nextBits, nextBits, hfb, getLsbD_shiftIn, getLsbD_shiftIn]
  by_cases hp : p < len ∧ p ≠ 0
  · rw [hbit (p - 1) (by omega)]
  · obtain h | rfl : ¬p < len ∨ p = 0 := by omega
    · simp [h]
    · simp

/-- R129 on the states of a length: onto follows from one-to-one, since they are finitely many. -/
theorem bijOn_nextBits_iff (htaps : Within len taps) (hpos : 1 ≤ len) (hlen : len ≤ w) :
    Set.BijOn (nextBits len taps) (statesOf w len) (statesOf w len) ↔
      taps.getLsbD (len - 1) = true := by
  rw [← (finite_statesOf w len).injOn_iff_bijOn_of_mapsTo mapsTo_nextBits]
  refine ⟨fun hinj => ?_, nextBits_injOn htaps hpos hlen⟩
  by_contra htop
  rw [Bool.not_eq_true] at htop
  have hone : 0#w ^^^ 1#w <<< (len - 1) ∈ statesOf w len := by
    refine (within_iff _ _).mpr fun p hp => ?_
    rw [← BitVec.twoPow_eq, BitVec.getLsbD_xor, BitVec.getLsbD_twoPow]
    have hne : len - 1 ≠ p := by omega
    simp [hne]
  have hmerge := hinj hone ((within_iff _ _).mpr fun p _ => BitVec.getLsbD_zero)
    (nextBits_xor_top htop 0#w).2
  have htopbit := congrArg (BitVec.getLsbD · (len - 1)) hmerge
  have hlt : len - 1 < w := by omega
  simp [← BitVec.twoPow_eq, hlt] at htopbit

/-- A bijection takes every state around: what comes back later has come back from the start on. -/
theorem exists_bitsAfter_eq_self (htaps : Within len taps) (hpos : 1 ≤ len) (hlen : len ≤ w)
    (htop : taps.getLsbD (len - 1) = true) {x : BitVec w} (hx : Within len x) :
    ∃ p, 1 ≤ p ∧ p ≤ 2 ^ len - 1 ∧ bitsAfter len taps x p = x := by
  obtain ⟨m, p, hp, hle, hreturn⟩ := exists_bitsAfter_return (taps := taps) hpos hx
  refine ⟨p, hp, hle, ?_⟩
  rw [Nat.add_comm, bitsAfter_add] at hreturn
  exact (nextBits_injOn htaps hpos hlen htop).iterate mapsTo_nextBits m
    (within_bitsAfter hx p) hx hreturn

end topTap

/-! ## The same, on State -/

/-- STEP answers the state `y` exactly where the register's map does. -/
theorem exec_step_reaches_iff {s : State} (hl : s.loaded = true) (x y : BitVec s.params.nMax) :
    (∃ t, exec .step { s with state := x } = .next t ∧ t.state.toNat = y.toNat) ↔
      nextBits s.len.toNat s.taps x = y := by
  have hstep : exec .step { s with state := x } = .next (stepRegister { s with state := x }) :=
    exec_step_loaded hl
  rw [hstep, ← BitVec.toNat_inj]
  constructor
  · rintro ⟨t, ht, hy⟩
    rw [← Host.Outcome.next.inj ht] at hy
    exact hy
  · exact fun hy => ⟨_, rfl, hy⟩

/-- Settles O30: `∃!` says that the map is a bijection on the states of the length. -/
theorem stepIsABijectionExactlyWithTheTopTap :
    Obligations.StepIsABijectionExactlyWithTheTopTap := by
  rintro s hl ⟨hpos, hmax, -, htaps⟩
  simp only [exec_step_reaches_iff hl]
  rw [← bijOn_nextBits_iff htaps hpos hmax]
  constructor
  · intro h
    refine ⟨mapsTo_nextBits, fun x hx y hy hxy => ?_, fun y hy => ?_⟩
    · exact (h _ (mapsTo_nextBits hx)).unique ⟨hx, rfl⟩ ⟨hy, hxy.symm⟩
    · obtain ⟨x, hx, -⟩ := h y hy
      exact ⟨x, hx⟩
  · rintro ⟨-, hinj, hsurj⟩ y hy
    obtain ⟨x, hx, hxy⟩ := hsurj hy
    exact ⟨x, ⟨hx, hxy⟩, fun z ⟨hz, hzy⟩ => hinj hz hx (hzy.trans hxy.symm)⟩

/-- Settles O31: the departing bit from the tree's equation, the cycle from the bijection, and the
merging pair from the bit the tree does not read. -/
theorem everyStateIsOnACycleWithTheTopTap : Obligations.EveryStateIsOnACycleWithTheTopTap := by
  rintro s hl ⟨hpos, hmax, hstate, htaps⟩
  refine ⟨fun htop => ⟨?_, ?_⟩, fun htop => ?_⟩
  · rw [State.fb, feedback_eq_top_xor htaps hpos hmax, htop, Bool.and_true, Bool.xor_comm,
      ← Bool.xor_assoc, Bool.xor_self, Bool.false_xor]
  · obtain ⟨p, hp, hle, hcycle⟩ := exists_bitsAfter_eq_self htaps hpos hmax htop hstate
    exact ⟨p, hp, hle, stepsRegister p s, runSteps_loaded p hl, by
      rw [stepsRegister_state_toNat, hcycle]⟩
  · obtain ⟨hfb, hnext⟩ := nextBits_xor_top (len := s.len.toNat) htop s.state
    refine ⟨stepRegister s, _, exec_step_loaded hl, exec_step_loaded hl,
      (congrArg BitVec.toNat hnext).symm, ?_⟩
    rw [stepRegister_result_toNat, stepRegister_result_toNat]
    exact (congrArg Bool.toNat hfb).symm

end Sys2Proof.Machine
end

section
/-! STEP and RAND are the source's `step` and `rand` (R42, R120, R140, R142), and a chain of RANDs
is `rand` of any length (R80, R147). -/

namespace Sys2Proof.Machine

/-- Settles O53: the step simulates the source's shift, and `fb` is the source's new bit. -/
theorem stepRefinesTheSource : Obligations.StepRefinesTheSource := by
  intro s r h hinv
  refine ⟨stepRegister s, exec_step_loaded h.loaded, rfl, represents_stepRegister h hinv, ?_⟩
  rw [stepRegister_result_toNat, h.fb_eq hinv]

theorem Register.rand_of_neg {k : Int} (hk : k < 0) (r : Register) :
    r.rand k = .error .invalidArgument :=
  if_pos hk

theorem Register.rand_natCast (k : Nat) (r : Register) : r.rand k = .ok (Register.randFrom k r 0) :=
  if_neg (by omega)

/-- Writing STATUS and `done` leaves the register that is represented. -/
theorem State.Represents.finish {s : State} {r : Register} (h : s.Represents r) (c : StatusName) :
    (finish c s).Represents r :=
  h.congr rfl rfl rfl rfl

/-- Settles O54, by the sign of `k`: below 0 both sides refuse, and from 0 on RAND simulates the
source's loop. -/
theorem randRefinesTheSource : Obligations.RandRefinesTheSource := by
  intro s r k h hinv hmax
  by_cases hneg : k < 0
  · rw [Register.rand_of_neg hneg, randRefusesABadArgument s k h.loaded (.inl hneg)]
    refine ⟨finish .invalidArgument s, rfl, by simp, fun e he => ?_⟩
    rw [Except.error.injEq] at he
    exact ⟨he.symm, rfl, h.finish .invalidArgument⟩
  · obtain ⟨n, rfl⟩ := Int.eq_ofNat_of_zero_le (Int.not_lt.mp hneg)
    have hn : n ≤ s.params.kMax := Int.ofNat_le.mp hmax
    rw [Register.rand_natCast]
    refine ⟨randRegister n s, exec_rand_loaded h.loaded hn, fun v r' hok => ?_, by simp⟩
    obtain ⟨rfl, rfl⟩ := Prod.mk.inj (Except.ok.inj hok)
    exact ⟨rfl, randRegister_result_eq_randFrom h hinv hn, represents_randRegister h hinv n⟩

/-! ## Chains of RANDs -/

/-- The `k`s of `RANDW k` add up to `k` (R80). -/
theorem sum_randWPlan (kMax k : Nat) : (randWPlan kMax k).sum = k := by
  have hdiv : k / kMax * kMax + k % kMax = k := Nat.div_add_mod' k kMax
  unfold randWPlan
  split
  next hzero => simpa [hzero] using hdiv
  next => simpa using hdiv

theorem le_of_mem_randWPlan {kMax k j : Nat} (hpos : 0 < kMax) (hj : j ∈ randWPlan kMax k) :
    j ≤ kMax := by
  unfold randWPlan at hj
  rw [List.mem_append] at hj
  obtain hj | hj := hj
  · exact (List.eq_of_mem_replicate hj).le
  · split at hj
    · simp at hj
    · rw [List.mem_singleton.mp hj]
      exact (Nat.mod_lt k hpos).le

/-- The host's fold with its first pair split off: the first value stands above the bits of the
others. -/
theorem hostFold_cons (j v : Nat) (rs : List (Nat × Nat)) :
    hostFold ((j, v) :: rs) = v * 2 ^ (rs.map Prod.fst).sum + hostFold rs := by
  induction rs using List.reverseRecOn with
  | nil => simp [hostFold]
  | append_singleton rs p ih =>
    have hsnoc (qs : List (Nat × Nat)) : hostFold (qs ++ [p]) = hostFold qs * 2 ^ p.1 + p.2 := by
      rw [hostFold, List.foldl_append]
      rfl
    rw [hsnoc, ← List.cons_append, hsnoc, ih, List.map_append, List.sum_append, List.map_singleton,
      List.sum_singleton, Nat.pow_add]
    ring

theorem randResults_cons {s t : State} {k : Nat} (h : exec (.rand k) s = .next t)
    (ks : List Nat) : randResults (k :: ks) s =
      (randResults ks t).map fun p => ((k, t.result.toNat) :: p.1, p.2) := by
  rw [randResults, h]

/-- A list of RANDs that all fit RESULT gives, folded by the host, the source's `rand` of their sum:
by induction, with R147 for the source at each command. -/
theorem randResults_refines_randFrom (ks : List Nat) {s : State} {r : Register}
    (h : s.Represents r) (hinv : s.LoadedInv) (hks : ∀ k ∈ ks, k ≤ s.params.kMax) :
    ∃ rs t, randResults ks s = some (rs, t) ∧ rs.map Prod.fst = ks ∧
      hostFold rs = (Register.randFrom ks.sum r 0).1 ∧
      t.Represents (Register.randFrom ks.sum r 0).2 := by
  induction ks generalizing s r with
  | nil => exact ⟨[], s, rfl, rfl, rfl, h⟩
  | cons k ks ih =>
    have hk : k ≤ s.params.kMax := hks k List.mem_cons_self
    obtain ⟨rs, t, hrun, hfst, hfold, hrep⟩ := ih (represents_randRegister h hinv k)
      (loadedInv_randRegister hinv k) fun j hj => hks j (List.mem_cons_of_mem k hj)
    refine ⟨(k, (randRegister k s).result.toNat) :: rs, t, ?_, ?_, ?_, ?_⟩
    · rw [randResults_cons (exec_rand_loaded h.loaded hk), hrun]
      rfl
    · rw [List.map_cons, hfst]
    · rw [hostFold_cons, hfst, hfold, List.sum_cons, randFrom_add_fst,
        randRegister_result_eq_randFrom h hinv hk]
    · rw [List.sum_cons, randFrom_add_snd]
      exact hrep

/-- Settles O56: the plan's `k`s add up to `k`, and each fits RESULT. -/
theorem chainedRandsGiveTheUnboundedRand : Obligations.ChainedRandsGiveTheUnboundedRand := by
  intro s r k h hinv
  obtain ⟨rs, t, hrun, -, hfold, hrep⟩ := randResults_refines_randFrom (randWPlan s.params.kMax k)
    h hinv fun _ hj => le_of_mem_randWPlan s.params.kMax_pos hj
  rw [sum_randWPlan] at hfold hrep
  exact ⟨rs, t, hrun, hfold, hrep⟩

end Sys2Proof.Machine
end

section
/-! NEW (R80): the operand words it builds, bit by bit, and that the LOAD it emits constructs the
source's register (R42, R100). -/

namespace Sys2Proof.Machine

/-! ## The operand words -/

theorem newFill_lt {bits : List Int} (h : ∀ b ∈ bits, b = 0 ∨ b = 1) :
    newFill bits < 2 ^ bits.length := by
  induction bits with
  | nil => exact Nat.one_pos
  | cons b bits ih =>
    have hrest := ih fun c hc => h c (List.mem_cons_of_mem b hc)
    rw [newFill, List.length_cons, Nat.pow_succ]
    obtain rfl | rfl := h b List.mem_cons_self
    · rw [Int.toNat_zero]
      omega
    · rw [Int.toNat_one]
      omega

/-- The first element is the highest bit of F (R80). -/
theorem newFill_testBit {bits : List Int} (h : ∀ b ∈ bits, b = 0 ∨ b = 1) (p : Nat) :
    (newFill bits).testBit p =
      (decide (p < bits.length) && decide (bits.getD ((bits.length - 1) - p) 0 = 1)) := by
  induction bits with
  | nil => simp [newFill]
  | cons b bits ih =>
    have hbits : ∀ c ∈ bits, c = 0 ∨ c = 1 := fun c hc => h c (List.mem_cons_of_mem b hc)
    rw [newFill, Nat.mul_comm, Nat.testBit_two_pow_mul_add _ (newFill_lt hbits), ih hbits,
      List.length_cons, Nat.add_sub_cancel]
    obtain hp | rfl | hp := Nat.lt_trichotomy p bits.length
    · obtain ⟨m, hm⟩ : ∃ m, bits.length - p = m + 1 := ⟨bits.length - 1 - p, by omega⟩
      have hm' : bits.length - 1 - p = m := by omega
      simp [hp, Nat.lt_succ_of_lt hp, hm, hm']
    · obtain rfl | rfl := h b List.mem_cons_self <;> simp
    · have hone : 2 ^ 1 ≤ 2 ^ (p - bits.length) := Nat.pow_le_pow_right Nat.two_pos (by omega)
      have hb : b.toNat ≤ 1 := by obtain rfl | rfl := h b List.mem_cons_self <;> decide
      have hlt : b.toNat < 2 ^ (p - bits.length) := by omega
      simp [Nat.not_lt.mpr hp.le, Nat.not_le.mpr hp, Nat.testBit_lt_two_pow hlt]

theorem newTaps_cons (n : Nat) (t : Int) (ts : List Int) :
    newTaps n (t :: ts) = newTaps n ts ^^^ 1#n <<< t.toNat := rfl

/-- Each listing of a tap toggles its bit (C1). -/
theorem newTaps_getLsbD (n : Nat) {ts : List Int} (h : ∀ t ∈ ts, 0 ≤ t) (p : Nat) :
    (newTaps n ts).getLsbD p = (decide (p < n) && decide (ts.count (p : Int) % 2 = 1)) := by
  induction ts with
  | nil => simp [newTaps]
  | cons t ts ih =>
    have ht : 0 ≤ t := h t List.mem_cons_self
    rw [newTaps_cons, BitVec.getLsbD_xor, ih fun c hc => h c (List.mem_cons_of_mem t hc),
      ← BitVec.twoPow_eq, BitVec.getLsbD_twoPow, List.count_cons]
    have hiff : t.toNat = p ↔ t = p := by omega
    obtain hc | hc := Nat.mod_two_eq_zero_or_one (ts.count (p : Int)) <;>
      by_cases htp : t = p <;> simp [hiff, htp, hc, Nat.add_mod]

/-- Settles O57: one induction for each operand word. -/
theorem newBuildsTheOperandWords : Obligations.NewBuildsTheOperandWords :=
  ⟨fun _ h p => newFill_testBit h p, fun n _ h p => newTaps_getLsbD n h p⟩

/-! ## The checks of `new` and of NEW -/

theorem any_badBit_iff (fill : List Int) :
    (fill.any fun b => b != 0 && b != 1) = true ↔ ¬∀ b ∈ fill, b = 0 ∨ b = 1 := by
  simp [or_iff_not_imp_left]

theorem any_badTap_iff (n : Int) (taps : List Int) :
    (taps.any fun t => decide (t < 0) || decide (n ≤ t)) = true ↔
      ¬∀ t ∈ taps, 0 ≤ t ∧ t < n := by
  simp [imp_iff_not_or]

section new
variable {fill taps : List Int} {r : Register}

/-- What the source asks of the operands of `new` that succeeds, and what it constructs (R100). -/
theorem Register.new_eq_ok (h : Register.new fill taps = .ok r) :
    (∀ b ∈ fill, b = 0 ∨ b = 1) ∧ (∀ t ∈ taps, 0 ≤ t ∧ t < fill.length) ∧
      r = ⟨fill.map (· == 1), taps.map Int.toNat⟩ := by
  unfold Register.new at h
  split at h
  · simp at h
  next hfill =>
    split at h
    · simp at h
    next htaps =>
      exact ⟨not_not.mp (mt (any_badBit_iff fill).mpr hfill),
        not_not.mp (mt (any_badTap_iff fill.length taps).mpr htaps), (Except.ok.inj h).symm⟩

/-- The port values of the LOAD that a NEW stands for (R80). -/
def newPorts (n : Nat) (fill taps : List Int) : Ports n :=
  issuePorts (.load fill.length) (BitVec.ofNat n (newFill fill)) (newTaps n taps)

theorem assembleNew_ok {n : Nat} (hfill : ∀ b ∈ fill, b = 0 ∨ b = 1)
    (htaps : ∀ t ∈ taps, 0 ≤ t ∧ t < n) (hlen : fill.length ≤ 65535) :
    assembleNew n fill taps = .ok [newPorts n fill taps] := by
  rw [assembleNew, newPorts, if_neg fun h => (any_badBit_iff fill).mp h hfill,
    if_neg fun h => (any_badTap_iff n taps).mp h htaps, if_neg (Nat.not_lt.mpr hlen)]

theorem count_map_toNat (h : ∀ t ∈ taps, 0 ≤ t) (p : Nat) :
    (taps.map Int.toNat).count p = taps.count (p : Int) := by
  lift taps to List Nat using h
  have hid : Int.toNat ∘ ((↑) : Nat → Int) = id := funext Int.toNat_natCast
  rw [List.count_map_of_injective taps ((↑) : Nat → Int) Nat.cast_injective, List.map_map, hid,
    List.map_id]

end new

/-! ## The LOAD that NEW emits -/

/-- The host offers the LOAD of a NEW whose operands the source takes. -/
structure State.OffersNew (s : State) (fill taps : List Int) : Prop where
  bits : ∀ b ∈ fill, b = 0 ∨ b = 1
  positions : ∀ t ∈ taps, 0 ≤ t ∧ t < fill.length
  nonempty : 1 ≤ fill.length
  fits : fill.length ≤ s.params.nMax
  fillPort : s.ports.fill = BitVec.ofNat s.params.nMax (newFill fill)
  tapsPort : s.ports.taps = newTaps s.params.nMax taps

namespace State.OffersNew
variable {s : State} {fill taps : List Int}

theorem badLength_eq (h : s.OffersNew fill taps) : badLength s.params fill.length = false :=
  badLength_eq_false h.nonempty h.fits

theorem fill_getLsbD (h : s.OffersNew fill taps) (p : Nat) : s.ports.fill.getLsbD p =
    (decide (p < fill.length) && decide (fill.getD ((fill.length - 1) - p) 0 = 1)) := by
  have hfits := h.fits
  rw [h.fillPort, BitVec.getLsbD_ofNat, newFill_testBit h.bits]
  by_cases hp : p < fill.length
  · simp [hp.trans_le hfits]
  · simp [hp]

theorem taps_getLsbD (h : s.OffersNew fill taps) (p : Nat) :
    s.ports.taps.getLsbD p = decide ((taps.map Int.toNat).count p % 2 = 1) := by
  have hnonneg : ∀ t ∈ taps, 0 ≤ t := fun t ht => (h.positions t ht).1
  rw [h.tapsPort, newTaps_getLsbD _ hnonneg, count_map_toNat hnonneg]
  by_cases hp : p < s.params.nMax
  · simp [hp]
  · have hcount : taps.count (p : Int) = 0 := List.count_eq_zero.mpr fun hmem => by
      have hlt := (h.positions p hmem).2
      have hfits := h.fits
      omega
    simp [hp, hcount]

theorem fill_inside (h : s.OffersNew fill taps) : outsideLength fill.length s.ports.fill = false :=
  outsideLength_eq_false_of_bits fun p hp => by simp [h.fill_getLsbD, Nat.not_lt.mpr hp]

theorem taps_inside (h : s.OffersNew fill taps) : outsideLength fill.length s.ports.taps = false :=
  outsideLength_eq_false_of_bits fun p hp => by
    have hcount : (taps.map Int.toNat).count p = 0 := List.count_eq_zero.mpr fun hmem => by
      obtain ⟨t, ht, rfl⟩ := List.mem_map.mp hmem
      have hlt := h.positions t ht
      omega
    simp [h.taps_getLsbD, hcount]

/-- The LOAD constructs the register of the source: array element i is fill bit (n-1)-i (R10,
R80). -/
theorem represents (h : s.OffersNew fill taps) : (loadRegister fill.length s).Represents
    ⟨fill.map (· == 1), taps.map Int.toNat⟩ where
  loaded := rfl
  length := (toNat_ofNat_len h.fits).trans (List.length_map _).symm
  bits i hi := by
    have hi' : i < fill.length := by simpa using hi
    have hlen : (BitVec.ofNat 16 fill.length : Half).toNat = fill.length := toNat_ofNat_len h.fits
    have hback : (fill.length - 1) - ((fill.length - 1) - i) = i := by omega
    have hp : (fill.length - 1) - i < fill.length := by omega
    show s.ports.fill.getLsbD ((BitVec.ofNat 16 fill.length).toNat - 1 - i) = _
    rw [hlen, h.fill_getLsbD, hback]
    simp [hp, hi', beq_eq_decide]
  taps := h.taps_getLsbD

end State.OffersNew

/-- Settles O55: the ports NEW emits meet `State.OffersNew`, so the step that accepts them is a LOAD
that succeeds. -/
theorem newRefinesTheSource : Obligations.NewRefinesTheSource := by
  intro s fill taps r hnew hpos hmax hb
  obtain ⟨hbits, hpositions, rfl⟩ := Register.new_eq_ok hnew
  have hlen : fill.length ≤ 65535 := hmax.trans s.params.nMax_le
  have hoffer :
      ({ s with ports := newPorts s.params.nMax fill taps } : State).OffersNew fill taps :=
    ⟨hbits, hpositions, hpos, hmax, rfl, rfl⟩
  have hstep : step { s with ports := newPorts s.params.nMax fill taps } =
      .next (loadRegister fill.length
        { s with ports := newPorts s.params.nMax fill taps }).advance :=
    step_command ((accepts_iff _).mpr ⟨rfl, hb, rfl⟩) (decode_encode ((load_wf_iff _).mpr hlen))
      (exec_load_good hoffer.badLength_eq hoffer.fill_inside hoffer.taps_inside)
  refine ⟨_, _, assembleNew_ok hbits (fun t ht => ?_) hlen, hstep, ?_, ?_, ?_⟩
  · have ht := hpositions t ht
    omega
  · rw [advance_status, loadRegister_status]
  · exact hoffer.represents.congr (advance_loaded _) (advance_len _) (advance_state_toNat _)
      (advance_taps_toNat _)
  · exact loadedInv_advance (loadedInv_loadRegister hoffer.badLength_eq hoffer.fill_inside
      hoffer.taps_inside)

end Sys2Proof.Machine
end
